-- ==== Sys2Proof/Word.lean ====
section
/-! DEFINITION. The word of the GF2M engine. -/

namespace Sys2Proof

/-- A Word, the base limb unit: 16 bits (R7); bit i is the coefficient of x^i (R11). -/
abbrev Word := BitVec 16

/-- A word address of the register space: 7 bits (R40). -/
abbrev Address := BitVec 7

end Sys2Proof
end

