-- ==== Sys2Proof/Machine/WidePolynomial.lean ====
section
/-! DEFINITION. Polynomials over GF(2) as natural numbers (R13): degree, carryless product, long division, modular
inversion (42_division_inversion.md). Loops run on fuel, the bound the spec gives with each (R108, R109, R114; log 12). -/

namespace Sys2Proof.Machine

/-- deg(v): the index of the highest set bit, and −1 for 0 (R105). -/
def deg (v : Nat) : Int := if v = 0 then -1 else (v.log2 : Int)

/-- One position of the shift-and-XOR product: when bit i of b is set, a·2^i is XORed in. -/
def clStep (a b acc i : Nat) : Nat := if b.testBit i then acc ^^^ (a <<< i) else acc

/-- cl(a, b), the carryless product (R13). -/
def cl (a b : Nat) : Nat := (List.range (b.log2 + 1)).foldl (clStep a b) 0

/-- The loop of R106 and R109 for the divisor n of degree e, on (q, r): while deg(r) ≥ e, the divisor shifted to the
top of r is XORed into r and the shift's bit into q. -/
def divLoop (n e : Nat) : Nat → Nat → Nat → Nat × Nat
  | 0, q, r => (q, r)
  | k + 1, q, r =>
    if (e : Int) ≤ deg r then
      let s := (deg r - e).toNat
      divLoop n e k (q ^^^ (1 <<< s)) (r ^^^ (n <<< s))
    else (q, r)

/-- divrem(d, n) of R106: quotient and remainder of d, below 2^(2m), by n of degree m; at most m iterations (R108). -/
def divrem (m d n : Nat) : Nat × Nat := divLoop n m m 0 d

/-- reduce(d, f) of R111: the remainder alone. -/
def reduce (m d n : Nat) : Nat := (divrem m d n).2

/-- gdivrem(n, d) of R109, for d ≠ 0: at most deg(n) − deg(d) + 1 iterations. -/
def gdivrem (n d : Nat) : Nat × Nat := divLoop d d.log2 (n.log2 + 1) 0 n

/-- The loop of R112 on (r0, r1) and (t0, t1), giving t0 at exit; each round's coefficient update uses the old t0, t1. -/
def euclidLoop : Nat → Nat → Nat → Nat → Nat → Nat
  | 0, _, _, t0, _ => t0
  | k + 1, r0, r1, t0, t1 =>
    if r1 = 0 then t0
    else
      let qr := gdivrem r0 r1
      euclidLoop k r1 qr.2 t1 (t0 ^^^ cl qr.1 t1)

/-- poly_inv(a, n) of R112, for deg(a) < m = deg(n): None for zero, else the coefficient of a paired with the last
non-zero remainder, reduced modulo n. -/
def polyInv (m a n : Nat) : Option Nat :=
  if a = 0 then none else some (reduce m (euclidLoop m n a 0 1) n)

end Sys2Proof.Machine
end

