-- ==== Sys2Proof/Machine/Irreducible.lean ====
section
/-! DEFINITION. The test a configuration must pass: a modulus x^m + low is irreducible over GF(2) (R29; log 2). It is
Rabin's test, which 92_eei_decisions.md D2 names, written so that Lean's kernel runs it on the moduli of the three fields;
Laws/Irreducible.lean proves that it answers true on the irreducible moduli and on no others. The hardware runs no such
test. -/

namespace Sys2Proof.Machine

/-- One round of `spreadSquare`: blocks of 2s bits are split into two blocks of s bits, s zeros between them. -/
def spreadStep (x s : Nat) : Nat := (x ^^^ (x <<< s)) &&& ((2 ^ 512 - 1) / (2 ^ s + 1))

/-- The square of a polynomial below x^256: bit i moves to bit 2i. -/
def spreadSquare (x : Nat) : Nat := [128, 64, 32, 16, 8, 4, 2, 1].foldl spreadStep x

/-- One folding by x^m ≡ low: the part of v from bit m up, times low, is XORed into the rest. -/
def foldOnce (m low v : Nat) : Nat := (v % 2 ^ m) ^^^ cl (v >>> m) low

/-- Foldings until v is below 2^m; each lowers the degree, so m of them are enough below x^(2m). -/
def foldDown (m low : Nat) : Nat → Nat → Nat
  | 0, v => v
  | k + 1, v => if v < 2 ^ m then v else foldDown m low k (foldOnce m low v)

/-- The square of x modulo x^m + low. -/
def squareMod (m low x : Nat) : Nat := foldDown m low m (spreadSquare x)

/-- k squarings modulo x^m + low. -/
def squareIter (m low : Nat) : Nat → Nat → Nat
  | 0, x => x
  | k + 1, x => squareIter m low k (squareMod m low x)

/-- The greatest common divisor by the division of R109. -/
def polyGcd : Nat → Nat → Nat → Nat
  | 0, a, _ => a
  | k + 1, a, b => if b = 0 then a else polyGcd k b (gdivrem a b).2

/-- Rabin's test of n = x^m + low: x^(2^m) ≡ x modulo n, and x^(2^(m/p)) − x is coprime to n for every prime p that
divides m; `primes` lists them. -/
def irreducibleTest (m : Nat) (primes : List Nat) (low : Nat) : Bool :=
  squareIter m low m 2 == 2 && primes.all fun p => polyGcd m (2 ^ m + low) (squareIter m low (m / p) 2 ^^^ 2) == 1

end Sys2Proof.Machine
end

