-- ==== Sys2Proof/Config.lean ====
section
/-! DEFINITION. What is fixed when an engine is built: the three fields, their moduli, and the free words of
the randomness port. -/

namespace Sys2Proof

/-- The field selector f: the engine has exactly three field instances (R8). -/
inductive FieldSel where
  | f128
  | f192
  | f256
  deriving DecidableEq, Repr

/-- L(f), the limb count (R8). -/
def FieldSel.limbs : FieldSel → Nat
  | .f128 => 8
  | .f192 => 12
  | .f256 => 16

/-- m(f) = 16·L(f), the degree (R8). -/
def FieldSel.degree (f : FieldSel) : Nat := 16 * f.limbs

/-- The moduli of an engine instance (R9, R29). A modulus has degree exactly m, so it is kept as its terms of degree
below m (R30): MOD(f) is x^m plus the low half. The proof fields are R29's premise on a configuration: moduli that are
not irreducible are no `Moduli` (log 2). -/
structure Moduli where
  low128 : BitVec 128
  low192 : BitVec 192
  low256 : BitVec 256
  irreducible128 : Machine.irreducibleTest 128 [2] low128.toNat = true
  irreducible192 : Machine.irreducibleTest 192 [2, 3] low192.toNat = true
  irreducible256 : Machine.irreducibleTest 256 [2] low256.toNat = true
  deriving DecidableEq, Repr

/-- MOD(f) as a natural number of m(f)+1 bits (R15, R30). -/
def Moduli.modulus (c : Moduli) : FieldSel → Nat
  | .f128 => 2 ^ 128 + c.low128.toNat
  | .f192 => 2 ^ 192 + c.low192.toNat
  | .f256 => 2 ^ 256 + c.low256.toNat

/-- The default moduli of R9: x^128+x^7+x^2+x+1, x^192+x^7+x^2+x+1, x^256+x^10+x^5+x^2+1.
DESIGN CHOICE (log 1): only `State.reset` uses them; every other definition takes the moduli as they stand. -/
def Moduli.default : Moduli :=
  { low128 := 0x87, low192 := 0x87, low256 := 0x425
    irreducible128 := by decide +kernel
    irreducible192 := by decide +kernel
    irreducible256 := by decide +kernel }

/-- The word the randomness port delivers at its n-th draw when State lists none: a FREE VALUE (log 3). The spec calls
each draw a free 16-bit input (U8, R31); nothing can be proved of it. -/
opaque Config.randomWord : Nat → Word

end Sys2Proof
end

