-- ==== Sys2Proof/Syntax.lean ====
section
/-! DEFINITION. The commands of GF2M-CMD version 1: one constructor per row of spec/opcode_table.json (R65). -/

namespace Sys2Proof

/-- The 37 legal commands: twelve field operations in three fields, and CLMUL (R61, R65). A command has no immediate,
register number or address; its operands are implicit (R66). -/
inductive Instr where
  /-- ZERO.128 (R127) -/
  | zero128
  /-- ZERO.192 (R127) -/
  | zero192
  /-- ZERO.256 (R127) -/
  | zero256
  /-- ONE.128 (R128) -/
  | one128
  /-- ONE.192 (R128) -/
  | one192
  /-- ONE.256 (R128) -/
  | one256
  /-- RANDOM.128 (R129) -/
  | random128
  /-- RANDOM.192 (R129) -/
  | random192
  /-- RANDOM.256 (R129) -/
  | random256
  /-- ADD.128 (R130) -/
  | add128
  /-- ADD.192 (R130) -/
  | add192
  /-- ADD.256 (R130) -/
  | add256
  /-- SUB.128 (R131) -/
  | sub128
  /-- SUB.192 (R131) -/
  | sub192
  /-- SUB.256 (R131) -/
  | sub256
  /-- MUL.128 (R132) -/
  | mul128
  /-- MUL.192 (R132) -/
  | mul192
  /-- MUL.256 (R132) -/
  | mul256
  /-- INV.128 (R133) -/
  | inv128
  /-- INV.192 (R133) -/
  | inv192
  /-- INV.256 (R133) -/
  | inv256
  /-- ISZERO.128 (R134) -/
  | iszero128
  /-- ISZERO.192 (R134) -/
  | iszero192
  /-- ISZERO.256 (R134) -/
  | iszero256
  /-- ISONE.128 (R135) -/
  | isone128
  /-- ISONE.192 (R135) -/
  | isone192
  /-- ISONE.256 (R135) -/
  | isone256
  /-- EQ.128 (R136) -/
  | eq128
  /-- EQ.192 (R136) -/
  | eq192
  /-- EQ.256 (R136) -/
  | eq256
  /-- WMUL.128 (R96) -/
  | wmul128
  /-- WMUL.192 (R96) -/
  | wmul192
  /-- WMUL.256 (R96) -/
  | wmul256
  /-- DIVREM.128 (R110) -/
  | divrem128
  /-- DIVREM.192 (R110) -/
  | divrem192
  /-- DIVREM.256 (R110) -/
  | divrem256
  /-- CLMUL (R84) -/
  | clmul
  deriving DecidableEq, Repr

end Sys2Proof
end

