-- ==== Sys2Proof/WellFormed.lean ====
section
/-! DEFINITION. When a command word is well formed: the checks on the fields of format CMD (R60, R67). An `Instr` has
no operand, so every `Instr` is well formed; the checks are on the word that names it. -/

namespace Sys2Proof

/-- The four fields of a command word (R60). -/
structure CommandFields where
  z1   : BitVec 8
  fsel : BitVec 2
  z0   : BitVec 2
  op   : BitVec 4
  deriving DecidableEq, Repr

/-- Bits 15:8 are zero (R60, R67). -/
def CommandFields.z1Ok (c : CommandFields) : Bool := c.z1 == 0

/-- Bits 5:4 are zero (R60, R67). -/
def CommandFields.z0Ok (c : CommandFields) : Bool := c.z0 == 0

/-- OP is not 0xD, 0xE or 0xF (R61, R67). -/
def CommandFields.opOk (c : CommandFields) : Bool := c.op.toNat < 0xD

/-- FSEL is not 0b11 (R62, R67). -/
def CommandFields.fselOk (c : CommandFields) : Bool := c.fsel != 3

/-- CLMUL (OP 0xC) takes FSEL 0b00 only (R62, R67). -/
def CommandFields.clmulOk (c : CommandFields) : Bool := c.op != 0xC || c.fsel == 0

/-- A command word is legal when every check holds (R67). -/
def CommandFields.wellFormed (c : CommandFields) : Bool :=
  c.z1Ok && c.z0Ok && c.opOk && c.fselOk && c.clmulOk

/-- The fields of a command word, cut as R60 cuts it: Z1 15:8, FSEL 7:6, Z0 5:4, OP 3:0. -/
def CommandFields.ofWord (c : Word) : CommandFields :=
  { z1 := c.extractLsb' 8 8, fsel := c.extractLsb' 6 2, z0 := c.extractLsb' 4 2, op := c.extractLsb' 0 4 }

/-- An instruction as syntax has no field that could be wrong (R66). -/
def Instr.wellFormed (_ : Instr) : Bool := true

end Sys2Proof
end

