-- ==== Sys2Proof/Decode.lean ====
section
/-! DEFINITION. Decoding of command words (R63), total, every reserved word rejected by name; then the encoder (R60 to
R62), written from the field tables and not from the decoder. -/

namespace Sys2Proof

/-- Why a command word is reserved (R67). The engine's answer is the same for all five (R68); the names are the
model's (log 11). -/
inductive Illegal where
  /-- a bit of 15:8 is set -/
  | highBitsSet
  /-- a bit of 5:4 is set -/
  | middleBitsSet
  /-- OP is 0xD, 0xE or 0xF -/
  | reservedOp
  /-- OP is CLMUL's 0xC and FSEL is not 0b00 -/
  | clmulWithField
  /-- FSEL is 0b11 -/
  | reservedField
  deriving DecidableEq, Repr

/-- The field FSEL selects (R62). -/
def selectField (fsel : BitVec 2) : Option FieldSel :=
  match fsel.toNat with
  | 0 => some .f128
  | 1 => some .f192
  | 2 => some .f256
  | _ => none

/-- The commands OP names in the fields F128, F192, F256 (R61); none for CLMUL and the reserved values. -/
def fieldCommands (op : Nat) : Option (Instr × Instr × Instr) :=
  match op with
  | 0x0 => some (.zero128, .zero192, .zero256)
  | 0x1 => some (.one128, .one192, .one256)
  | 0x2 => some (.random128, .random192, .random256)
  | 0x3 => some (.add128, .add192, .add256)
  | 0x4 => some (.sub128, .sub192, .sub256)
  | 0x5 => some (.mul128, .mul192, .mul256)
  | 0x6 => some (.inv128, .inv192, .inv256)
  | 0x7 => some (.iszero128, .iszero192, .iszero256)
  | 0x8 => some (.isone128, .isone192, .isone256)
  | 0x9 => some (.eq128, .eq192, .eq256)
  | 0xA => some (.wmul128, .wmul192, .wmul256)
  | 0xB => some (.divrem128, .divrem192, .divrem256)
  | _ => none

/-- One of three commands, by field. -/
def pickField (f : FieldSel) (c : Instr × Instr × Instr) : Instr :=
  match f with
  | .f128 => c.1
  | .f192 => c.2.1
  | .f256 => c.2.2

/-- decode(c) of R63: the legal command a word encodes, or why it is reserved. -/
def decode (c : Word) : Except Illegal Instr :=
  let op := c.extractLsb' 0 4
  let fsel := c.extractLsb' 6 2
  if c.extractLsb' 8 8 ≠ 0 then .error .highBitsSet
  else if c.extractLsb' 4 2 ≠ 0 then .error .middleBitsSet
  else if 0xD ≤ op.toNat then .error .reservedOp
  else if op = 0xC then
    if fsel = 0 then .ok .clmul else .error .clmulWithField
  else
    match selectField fsel, fieldCommands op.toNat with
    | some f, some row => .ok (pickField f row)
    | _, _ => .error .reservedField

/-- The instruction the decoder reads from an instruction whose bits are w, numbered as spec/opcode_table.json numbers
them. A command is one 16-bit word (R60, R70): the lowest nbits bits of w, the bits above them zero. -/
def decodeTableWord (nbits w : Nat) : Option Instr :=
  let c := w % 2 ^ nbits
  if c < 2 ^ 16 then (decode (BitVec.ofNat 16 c)).toOption else none

/-- FSEL of a field (R62). -/
def FieldSel.code : FieldSel → BitVec 2
  | .f128 => 0b00
  | .f192 => 0b01
  | .f256 => 0b10

/-- A command word from its fields: c = zext_16(FSEL:00:OP) (R60). -/
def commandWord (f : FieldSel) (op : BitVec 4) : Word := (f.code ++ (0b00 : BitVec 2) ++ op).setWidth 16

/-- The command word of each command, from its OP (R61) and its field (R62); CLMUL has FSEL 0b00. -/
def encode : Instr → Word
  | .zero128 => commandWord .f128 0x0
  | .zero192 => commandWord .f192 0x0
  | .zero256 => commandWord .f256 0x0
  | .one128 => commandWord .f128 0x1
  | .one192 => commandWord .f192 0x1
  | .one256 => commandWord .f256 0x1
  | .random128 => commandWord .f128 0x2
  | .random192 => commandWord .f192 0x2
  | .random256 => commandWord .f256 0x2
  | .add128 => commandWord .f128 0x3
  | .add192 => commandWord .f192 0x3
  | .add256 => commandWord .f256 0x3
  | .sub128 => commandWord .f128 0x4
  | .sub192 => commandWord .f192 0x4
  | .sub256 => commandWord .f256 0x4
  | .mul128 => commandWord .f128 0x5
  | .mul192 => commandWord .f192 0x5
  | .mul256 => commandWord .f256 0x5
  | .inv128 => commandWord .f128 0x6
  | .inv192 => commandWord .f192 0x6
  | .inv256 => commandWord .f256 0x6
  | .iszero128 => commandWord .f128 0x7
  | .iszero192 => commandWord .f192 0x7
  | .iszero256 => commandWord .f256 0x7
  | .isone128 => commandWord .f128 0x8
  | .isone192 => commandWord .f192 0x8
  | .isone256 => commandWord .f256 0x8
  | .eq128 => commandWord .f128 0x9
  | .eq192 => commandWord .f192 0x9
  | .eq256 => commandWord .f256 0x9
  | .wmul128 => commandWord .f128 0xA
  | .wmul192 => commandWord .f192 0xA
  | .wmul256 => commandWord .f256 0xA
  | .divrem128 => commandWord .f128 0xB
  | .divrem192 => commandWord .f192 0xB
  | .divrem256 => commandWord .f256 0xB
  | .clmul => commandWord .f128 0xC

end Sys2Proof
end

