-- ==== Sys2Proof/Machine/State.lean ====
section
/-! DEFINITION. The state of the machine, its inputs, the reasons a step could stop, and the state after reset. -/

namespace Sys2Proof.Machine

/-- A register of 16 words (R20, R21). -/
abbrev Reg := Vector Word 16

/-- The register with every word 0x0000. -/
def Reg.zero : Reg := Vector.replicate 16 0

/-- The three flag bits of STATUS (R26); bits 15:3 have no storage. -/
structure Status where
  /-- the last command was INV of the zero polynomial -/
  NONE : Bool
  /-- the last command was a predicate that was true -/
  T    : Bool
  /-- the last command was a reserved encoding -/
  ILL  : Bool
  deriving DecidableEq, Repr

/-- What can happen at the engine's inputs, one at a time and in order (R17, R49, R170). -/
inductive HostEvent where
  /-- RegRead(addr) (R43) -/
  | read (addr : Address)
  /-- RegWrite(addr, v) (R44) -/
  | write (addr : Address) (v : Word)
  /-- RegWrite of the word the host read last: the host's half of MVLA, MVLB and MVHA (R72) -/
  | writeBack (addr : Address)
  /-- the reset input is asserted, between two accesses and not inside a command (R170; log 15) -/
  | resetAssert
  /-- the reset input is released (R170) -/
  | resetRelease
  deriving DecidableEq, Repr

/-- The architectural state is (A, B, RH, RL, STATUS) (10_state.md section 1). The fields after `status` are the
configuration (log 1) and the engine's inputs and outputs as plain data (logs 3 to 6). -/
structure State where
  /-- operand register A (R20) -/
  a         : Reg
  /-- operand register B (R20) -/
  b         : Reg
  /-- result register RH: high half, quotient (R21) -/
  rh        : Reg
  /-- result register RL: low half, remainder, field result (R21) -/
  rl        : Reg
  /-- STATUS (R26) -/
  status    : Status
  /-- the moduli of this engine instance, written by nothing, valid by their type (R9, R29; logs 1, 2) -/
  mods      : Moduli
  /-- the reset input is asserted (R170; log 6) -/
  resetIn   : Bool
  /-- the words waiting at the randomness port, the next first (R31; log 3) -/
  portWords : List Word
  /-- how many words have been drawn (log 3) -/
  drawn     : Nat
  /-- what happens next at the host port and the reset input (R17, R18; log 4) -/
  events    : List HostEvent
  /-- the words RegRead has returned to the host, newest first (R43; log 5) -/
  answers   : List Word
  deriving DecidableEq, Repr

/-- No step ends in a fault: the engine raises no exception and no host access faults (R150); the type has no
constructor (log 10). -/
inductive Fault where
  deriving DecidableEq, Repr

/-- Why exec would refuse. -/
inductive Refusal where
  /-- Raised by an arm of `exec` whose command has no meaning yet; every command has one, so nothing raises it. Safe. -/
  | notModelled (mnemonic : String)
  deriving DecidableEq, Repr

/-- The machine when reset has been released: A, B, RH, RL and STATUS are zero (R34, R170). The moduli are the spec's
defaults (log 1) and no event, port word or answer is listed (logs 3 to 7). -/
def State.reset : State :=
  { a := Reg.zero, b := Reg.zero, rh := Reg.zero, rl := Reg.zero
    status := { NONE := false, T := false, ILL := false }
    mods := Moduli.default, resetIn := false, portWords := [], drawn := 0, events := [], answers := [] }

end Sys2Proof.Machine
end

