-- ==== Sys2Proof/Machine/Flags.lean ====
section
/-! DEFINITION. STATUS: every flag computation of the spec, and the word a read of STATUS returns (R26, R28, R43). -/

namespace Sys2Proof.Machine

/-- All three flags 0: what most commands write (R126). -/
def Status.clear : Status := { NONE := false, T := false, ILL := false }

/-- What a predicate command writes: T is the predicate, the others 0 (R134 to R136). -/
def Status.ofPredicate (p : Bool) : Status := { NONE := false, T := p, ILL := false }

/-- What INV of the zero polynomial writes (R133, R151). -/
def Status.noInverse : Status := { NONE := true, T := false, ILL := false }

/-- What a reserved encoding writes (R68, R152). -/
def Status.reservedWord : Status := { NONE := false, T := false, ILL := true }

/-- zext_16(ILL:T:NONE), the word read at 0x41 (R43). -/
def Status.word (st : Status) : Word :=
  (BitVec.ofBool st.ILL ++ BitVec.ofBool st.T ++ BitVec.ofBool st.NONE).setWidth 16

end Sys2Proof.Machine
end

