-- ==== Sys2Proof/Machine/Operands.lean ====
section
/-! DEFINITION. Operand forms: the L-limb polynomials that stand in the registers, and their values as numbers (R12,
R14, R23, R90). Limb 0 is the highest-degree limb. -/

namespace Sys2Proof.Machine

/-- A Polynomial<L>: exactly L words (R90). -/
abbrev Poly (L : Nat) := Vector Word L

/-- Limb k of a register, 0 beyond its 16 words. -/
def Reg.limb (r : Reg) (k : Nat) : Word := if h : k < 16 then r[k] else 0

/-- X[0..L), the polynomial of L limbs that stands in a register (R15, R23). -/
def Reg.poly (r : Reg) (L : Nat) : Poly L := Vector.ofFn fun k => r.limb k.1

/-- What `RL <- p` leaves in a register: p[k] for k < L and 0 for L ≤ k ≤ 15 (R15, R24). -/
def Reg.ofPoly {L : Nat} (p : Poly L) : Reg := Vector.ofFn fun k => if h : k.1 < L then p[k.1] else 0

/-- val_L(p) = Σ p[k]·2^(16·(L−1−k)) (R12). -/
def Poly.val {L : Nat} (p : Poly L) : Nat := p.toList.foldl (fun v w => v * 2 ^ 16 + w.toNat) 0

/-- limbs_L(v): limb k is (v >> 16·(L−1−k)) mod 2^16 (R12). -/
def Poly.ofNat (L v : Nat) : Poly L := Vector.ofFn fun k => BitVec.ofNat 16 (v >>> (16 * (L - 1 - k.1)))

/-- wval_L(high, low) = val_L(high)·2^(16·L) + val_L(low) (R14). -/
def Poly.wideVal {L : Nat} (high low : Poly L) : Nat := high.val * 2 ^ (16 * L) + low.val

/-- ZERO_L (R91). -/
def Poly.zero (L : Nat) : Poly L := Vector.replicate L 0

/-- ONE_L: limb L−1 is 0x0001, every other limb 0 (R91). -/
def Poly.one (L : Nat) : Poly L := Vector.ofFn fun k => if k.1 = L - 1 then 1 else 0

end Sys2Proof.Machine
end

