-- ==== Sys2Proof/Machine/Ops.lean ====
section
/-! DEFINITION. The named operations over the state: writing results, drawing words, reset, and the two register
accesses of the host port. The engine has no trap entry or return (R155, R156); the one shared event operation is
`reservedCommand` (R68). -/

namespace Sys2Proof.Machine

/-- One limb of a register written (R44); k beyond 15 writes nothing. -/
def Reg.setLimb (r : Reg) (k : Nat) (v : Word) : Reg := r.setIfInBounds k v

/-- Every command writes all of RH, all of RL and all of STATUS, and nothing else (R22, R24). -/
def State.writeResults (s : State) (rh rl : Reg) (st : Status) : State :=
  { s with rh := rh, rl := rl, status := st }

/-- A command with one L-limb result: RL holds it, RH is 0, every flag is 0 (R21, R126). -/
def State.writeElement {L : Nat} (s : State) (p : Poly L) : State :=
  s.writeResults Reg.zero (Reg.ofPoly p) Status.clear

/-- A command with a pair result: (high, low) or (quotient, remainder) in (RH, RL), every flag 0 (R21). -/
def State.writePair {L : Nat} (s : State) (hi lo : Poly L) : State :=
  s.writeResults (Reg.ofPoly hi) (Reg.ofPoly lo) Status.clear

/-- A predicate command: RH and RL are 0, T is the predicate (R134 to R136). -/
def State.writePredicate (s : State) (p : Bool) : State :=
  s.writeResults Reg.zero Reg.zero (Status.ofPredicate p)

/-- A reserved encoding: RH and RL are 0, ILL is 1, nothing is read or drawn (R68, R152). -/
def State.reservedCommand (s : State) : State :=
  s.writeResults Reg.zero Reg.zero Status.reservedWord

/-- The word the next draw() takes: the head of the words waiting at the port, else the free word of this draw
(R31, U8; log 3). The port never stalls or fails. -/
def State.nextWord (s : State) : Word :=
  match s.portWords with
  | w :: _ => w
  | [] => Config.randomWord s.drawn

/-- The state after one draw(). -/
def State.afterDraw (s : State) : State :=
  { s with portWords := s.portWords.tail, drawn := s.drawn + 1 }

/-- The next n words drawn, in the order of drawing (R129). -/
def State.drawWords : Nat → State → List Word
  | 0, _ => []
  | n + 1, s => s.nextWord :: State.drawWords n s.afterDraw

/-- The state after n draws. -/
def State.afterDraws : Nat → State → State
  | 0, s => s
  | n + 1, s => State.afterDraws n s.afterDraw

/-- Releasing reset: A, B, RH, RL and STATUS are zero; the moduli and the randomness source are untouched (R34, R170,
R171). -/
def State.releaseReset (s : State) : State :=
  { s with a := Reg.zero, b := Reg.zero, rh := Reg.zero, rl := Reg.zero, status := Status.clear, resetIn := false }

/-- RegRead(addr) of R43. -/
def State.regRead (s : State) (addr : Address) : Word :=
  let n := addr.toNat
  if n ≤ 0x0F then s.a.limb n
  else if n ≤ 0x1F then s.b.limb (n - 0x10)
  else if n ≤ 0x2F then s.rh.limb (n - 0x20)
  else if n ≤ 0x3F then s.rl.limb (n - 0x30)
  else if n = 0x40 then 0
  else if n = 0x41 then s.status.word
  else 0

/-- RegWrite(addr, v) of R44 at every address but CMD: A and B take the word, the rest ignore it. -/
def State.regStore (s : State) (addr : Address) (v : Word) : State :=
  let n := addr.toNat
  if n ≤ 0x0F then { s with a := s.a.setLimb n v }
  else if n ≤ 0x1F then { s with b := s.b.setLimb (n - 0x10) v }
  else s

/-- The word address of CMD (R25, R41). -/
def cmdAddress : Address := 0x40

/-- The word address of STATUS (R26, R41). -/
def statusAddress : Address := 0x41

/-- The engine answers a read with a word (R43; log 5). -/
def State.answer (s : State) (w : Word) : State := { s with answers := w :: s.answers }

/-- The word the host read last, which its next writeBack writes (R72); 0x0000 when it has read none (log 5). -/
def State.lastAnswer (s : State) : Word := s.answers.headD 0

end Sys2Proof.Machine
end

