-- ==== Sys2Proof/Machine/WordOps.lean ====
section
/-! DEFINITION. WordOps: the widening shift and the word carryless multiply (40_wordops.md). -/

namespace Sys2Proof.Machine

/-- wshl(a, i) of R80, for 0 ≤ i ≤ 16: (high, low) of the 32-bit value a·2^i. -/
def wshl (a : Word) (i : Nat) : Word × Word :=
  let v : BitVec 32 := a.setWidth 32 <<< i
  (v.extractLsb' 16 16, v.extractLsb' 0 16)

/-- One position of R81's loop: when bit i of b is set, the shifted a is XORed into (high, low). -/
def clmulStep (a b : Word) (acc : Word × Word) (i : Nat) : Word × Word :=
  if b.getLsbD i then (acc.1 ^^^ (wshl a i).1, acc.2 ^^^ (wshl a i).2) else acc

/-- clmul(a, b) of R81: (high, low) of the carryless product. -/
def clmul (a b : Word) : Word × Word :=
  (List.range 16).foldl (clmulStep a b) (0, 0)

end Sys2Proof.Machine
end

