-- ==== Sys2Proof/Machine/Polynomial.lean ====
section
/-! DEFINITION. Polynomial: addition, equality, and the schoolbook widening multiply (41_polynomial.md). -/

namespace Sys2Proof.Machine

/-- padd(a, b): componentwise XOR (R92). -/
def Poly.add {L : Nat} (a b : Poly L) : Poly L := Vector.ofFn fun k => a[k] ^^^ b[k]

/-- peq(a, b): every limb equal (R97). -/
def Poly.eq {L : Nat} (a b : Poly L) : Bool := (List.finRange L).all fun k => a[k] == b[k]

/-- P[p] = P[p] ^ w of R93's accumulation. -/
def xorInto {n : Nat} (P : Vector Word n) (p : Nat) (w : Word) : Vector Word n :=
  if h : p < n then P.set p (P[p] ^^^ w) else P

/-- The body of R93's loops at the word positions i of a and j of b. -/
def wmulStep {L : Nat} (a b : Poly L) (P : Vector Word (2 * L)) (i j : Fin L) : Vector Word (2 * L) :=
  let hl := clmul a[L - 1 - i.1] b[L - 1 - j.1]
  xorInto (xorInto P (i.1 + j.1) hl.2) (i.1 + j.1 + 1) hl.1

/-- The 2L product words by word position, P[0] the least significant (R93). -/
def wmulWords {L : Nat} (a b : Poly L) : Vector Word (2 * L) :=
  (List.finRange L).foldl (fun P i => (List.finRange L).foldl (fun P j => wmulStep a b P i j) P)
    (Vector.replicate (2 * L) 0)

/-- wmul(a, b) of R93: the pair (high, low) of the widening product. -/
def wmul {L : Nat} (a b : Poly L) : Poly L × Poly L :=
  let P := wmulWords a b
  (Vector.ofFn fun k => P[2 * L - 1 - k.1], Vector.ofFn fun k => P[L - 1 - k.1])

end Sys2Proof.Machine
end

