-- ==== Sys2Proof/Machine/Additive.lean ====
section
/-! DEFINITION. The meanings of ADD.f and SUB.f (R130, R131). -/

namespace Sys2Proof.Machine

/-- The sum of A[0..L) and B[0..L), which is also their difference (R92, R130, R131). -/
def addCommand (f : FieldSel) (s : State) : State :=
  s.writeElement (Poly.add (s.a.poly f.limbs) (s.b.poly f.limbs))

/-- ADD.128 (R130). -/
def execAdd128 (s : State) : Host.Outcome State Fault Refusal := .next (addCommand .f128 s)

/-- ADD.192 (R130). -/
def execAdd192 (s : State) : Host.Outcome State Fault Refusal := .next (addCommand .f192 s)

/-- ADD.256 (R130). -/
def execAdd256 (s : State) : Host.Outcome State Fault Refusal := .next (addCommand .f256 s)

/-- SUB.128 (R131). -/
def execSub128 (s : State) : Host.Outcome State Fault Refusal := .next (addCommand .f128 s)

/-- SUB.192 (R131). -/
def execSub192 (s : State) : Host.Outcome State Fault Refusal := .next (addCommand .f192 s)

/-- SUB.256 (R131). -/
def execSub256 (s : State) : Host.Outcome State Fault Refusal := .next (addCommand .f256 s)

end Sys2Proof.Machine
end

