-- ==== Sys2Proof/Machine/Constants.lean ====
section
/-! DEFINITION. The meanings of ZERO.f and ONE.f (R127, R128). -/

namespace Sys2Proof.Machine

/-- ZERO.f (R127): RL is ZERO_L. -/
def zeroCommand (f : FieldSel) (s : State) : State := s.writeElement (Poly.zero f.limbs)

/-- ONE.f (R128): RL is ONE_L. -/
def oneCommand (f : FieldSel) (s : State) : State := s.writeElement (Poly.one f.limbs)

/-- ZERO.128 (R127). -/
def execZero128 (s : State) : Host.Outcome State Fault Refusal := .next (zeroCommand .f128 s)

/-- ZERO.192 (R127). -/
def execZero192 (s : State) : Host.Outcome State Fault Refusal := .next (zeroCommand .f192 s)

/-- ZERO.256 (R127). -/
def execZero256 (s : State) : Host.Outcome State Fault Refusal := .next (zeroCommand .f256 s)

/-- ONE.128 (R128). -/
def execOne128 (s : State) : Host.Outcome State Fault Refusal := .next (oneCommand .f128 s)

/-- ONE.192 (R128). -/
def execOne192 (s : State) : Host.Outcome State Fault Refusal := .next (oneCommand .f192 s)

/-- ONE.256 (R128). -/
def execOne256 (s : State) : Host.Outcome State Fault Refusal := .next (oneCommand .f256 s)

end Sys2Proof.Machine
end

