-- ==== Sys2Proof/Machine/Divide.lean ====
section
/-! DEFINITION. The meanings of DIVREM.f and INV.f (R110, R133). -/

namespace Sys2Proof.Machine

/-- DIVREM.f (R110): the dividend is (A[0..L), B[0..L)), the divisor MOD(f); quotient in RH, remainder in RL. -/
def divremCommand (f : FieldSel) (s : State) : State :=
  let d := Poly.wideVal (s.a.poly f.limbs) (s.b.poly f.limbs)
  let qr := divrem f.degree d (s.mods.modulus f)
  s.writePair (Poly.ofNat f.limbs qr.1) (Poly.ofNat f.limbs qr.2)

/-- INV.f (R133): the inverse of A[0..L) modulo MOD(f); for the zero polynomial RL is 0 and NONE is set. -/
def invCommand (f : FieldSel) (s : State) : State :=
  match polyInv f.degree (s.a.poly f.limbs).val (s.mods.modulus f) with
  | none => s.writeResults Reg.zero Reg.zero Status.noInverse
  | some v => s.writeElement (Poly.ofNat f.limbs v)

/-- DIVREM.128 (R110). -/
def execDivrem128 (s : State) : Host.Outcome State Fault Refusal := .next (divremCommand .f128 s)

/-- DIVREM.192 (R110). -/
def execDivrem192 (s : State) : Host.Outcome State Fault Refusal := .next (divremCommand .f192 s)

/-- DIVREM.256 (R110). -/
def execDivrem256 (s : State) : Host.Outcome State Fault Refusal := .next (divremCommand .f256 s)

/-- INV.128 (R133). -/
def execInv128 (s : State) : Host.Outcome State Fault Refusal := .next (invCommand .f128 s)

/-- INV.192 (R133). -/
def execInv192 (s : State) : Host.Outcome State Fault Refusal := .next (invCommand .f192 s)

/-- INV.256 (R133). -/
def execInv256 (s : State) : Host.Outcome State Fault Refusal := .next (invCommand .f256 s)

end Sys2Proof.Machine
end

