-- ==== Sys2Proof/Machine/Multiply.lean ====
section
/-! DEFINITION. The meanings of MUL.f, WMUL.f and CLMUL (R132, R96, R84). -/

namespace Sys2Proof.Machine

/-- MUL.f (R132): the widening product reduced modulo MOD(f); only the remainder is kept. -/
def mulCommand (f : FieldSel) (s : State) : State :=
  let hl := wmul (s.a.poly f.limbs) (s.b.poly f.limbs)
  let qr := divrem f.degree (Poly.wideVal hl.1 hl.2) (s.mods.modulus f)
  s.writeElement (Poly.ofNat f.limbs qr.2)

/-- WMUL.f (R96): the widening product, high half in RH, low half in RL. -/
def wmulCommand (f : FieldSel) (s : State) : State :=
  let hl := wmul (s.a.poly f.limbs) (s.b.poly f.limbs)
  s.writePair hl.1 hl.2

/-- CLMUL (R84): the word product of A[0] and B[0], high word in RH[0], low word in RL[0]. -/
def clmulCommand (s : State) : State :=
  let hl := clmul (s.a.limb 0) (s.b.limb 0)
  s.writePair (L := 1) #v[hl.1] #v[hl.2]

/-- MUL.128 (R132). -/
def execMul128 (s : State) : Host.Outcome State Fault Refusal := .next (mulCommand .f128 s)

/-- MUL.192 (R132). -/
def execMul192 (s : State) : Host.Outcome State Fault Refusal := .next (mulCommand .f192 s)

/-- MUL.256 (R132). -/
def execMul256 (s : State) : Host.Outcome State Fault Refusal := .next (mulCommand .f256 s)

/-- WMUL.128 (R96). -/
def execWmul128 (s : State) : Host.Outcome State Fault Refusal := .next (wmulCommand .f128 s)

/-- WMUL.192 (R96). -/
def execWmul192 (s : State) : Host.Outcome State Fault Refusal := .next (wmulCommand .f192 s)

/-- WMUL.256 (R96). -/
def execWmul256 (s : State) : Host.Outcome State Fault Refusal := .next (wmulCommand .f256 s)

/-- CLMUL (R84). -/
def execClmul (s : State) : Host.Outcome State Fault Refusal := .next (clmulCommand s)

end Sys2Proof.Machine
end

