-- ==== Sys2Proof/Machine/Predicates.lean ====
section
/-! DEFINITION. The meanings of ISZERO.f, ISONE.f and EQ.f (R134 to R136). -/

namespace Sys2Proof.Machine

/-- ISZERO.f (R134): T says that every limb of A[0..L) is 0x0000. -/
def iszeroCommand (f : FieldSel) (s : State) : State :=
  s.writePredicate (Poly.eq (s.a.poly f.limbs) (Poly.zero f.limbs))

/-- ISONE.f (R135): T says that A[0..L) is ONE_L. -/
def isoneCommand (f : FieldSel) (s : State) : State :=
  s.writePredicate (Poly.eq (s.a.poly f.limbs) (Poly.one f.limbs))

/-- EQ.f (R136): T says that A[0..L) and B[0..L) agree in every limb. -/
def eqCommand (f : FieldSel) (s : State) : State :=
  s.writePredicate (Poly.eq (s.a.poly f.limbs) (s.b.poly f.limbs))

/-- ISZERO.128 (R134). -/
def execIszero128 (s : State) : Host.Outcome State Fault Refusal := .next (iszeroCommand .f128 s)

/-- ISZERO.192 (R134). -/
def execIszero192 (s : State) : Host.Outcome State Fault Refusal := .next (iszeroCommand .f192 s)

/-- ISZERO.256 (R134). -/
def execIszero256 (s : State) : Host.Outcome State Fault Refusal := .next (iszeroCommand .f256 s)

/-- ISONE.128 (R135). -/
def execIsone128 (s : State) : Host.Outcome State Fault Refusal := .next (isoneCommand .f128 s)

/-- ISONE.192 (R135). -/
def execIsone192 (s : State) : Host.Outcome State Fault Refusal := .next (isoneCommand .f192 s)

/-- ISONE.256 (R135). -/
def execIsone256 (s : State) : Host.Outcome State Fault Refusal := .next (isoneCommand .f256 s)

/-- EQ.128 (R136). -/
def execEq128 (s : State) : Host.Outcome State Fault Refusal := .next (eqCommand .f128 s)

/-- EQ.192 (R136). -/
def execEq192 (s : State) : Host.Outcome State Fault Refusal := .next (eqCommand .f192 s)

/-- EQ.256 (R136). -/
def execEq256 (s : State) : Host.Outcome State Fault Refusal := .next (eqCommand .f256 s)

end Sys2Proof.Machine
end

