-- ==== Sys2Proof/Machine/Random.lean ====
section
/-! DEFINITION. The meanings of RANDOM.f (R129). -/

namespace Sys2Proof.Machine

/-- RANDOM.f (R129): exactly L words are drawn, and the k-th drawn is limb k. -/
def randomCommand (f : FieldSel) (s : State) : State :=
  let ws := State.drawWords f.limbs s
  (State.afterDraws f.limbs s).writeElement (Vector.ofFn fun k : Fin f.limbs => ws.getD k.1 0)

/-- RANDOM.128 (R129). -/
def execRandom128 (s : State) : Host.Outcome State Fault Refusal := .next (randomCommand .f128 s)

/-- RANDOM.192 (R129). -/
def execRandom192 (s : State) : Host.Outcome State Fault Refusal := .next (randomCommand .f192 s)

/-- RANDOM.256 (R129). -/
def execRandom256 (s : State) : Host.Outcome State Fault Refusal := .next (randomCommand .f256 s)

end Sys2Proof.Machine
end

