-- ==== Sys2Proof/Machine/Dispatch.lean ====
section
/-! DEFINITION. exec: one arm per command, each a direct call of its meaning (R64). -/

namespace Sys2Proof.Machine

open Sys2Proof

def exec (i : Instr) (s : State) : Host.Outcome State Fault Refusal :=
  match i with
  | .zero128 => Sys2Proof.Machine.execZero128 s
  | .zero192 => Sys2Proof.Machine.execZero192 s
  | .zero256 => Sys2Proof.Machine.execZero256 s
  | .one128 => Sys2Proof.Machine.execOne128 s
  | .one192 => Sys2Proof.Machine.execOne192 s
  | .one256 => Sys2Proof.Machine.execOne256 s
  | .random128 => Sys2Proof.Machine.execRandom128 s
  | .random192 => Sys2Proof.Machine.execRandom192 s
  | .random256 => Sys2Proof.Machine.execRandom256 s
  | .add128 => Sys2Proof.Machine.execAdd128 s
  | .add192 => Sys2Proof.Machine.execAdd192 s
  | .add256 => Sys2Proof.Machine.execAdd256 s
  | .sub128 => Sys2Proof.Machine.execSub128 s
  | .sub192 => Sys2Proof.Machine.execSub192 s
  | .sub256 => Sys2Proof.Machine.execSub256 s
  | .mul128 => Sys2Proof.Machine.execMul128 s
  | .mul192 => Sys2Proof.Machine.execMul192 s
  | .mul256 => Sys2Proof.Machine.execMul256 s
  | .inv128 => Sys2Proof.Machine.execInv128 s
  | .inv192 => Sys2Proof.Machine.execInv192 s
  | .inv256 => Sys2Proof.Machine.execInv256 s
  | .iszero128 => Sys2Proof.Machine.execIszero128 s
  | .iszero192 => Sys2Proof.Machine.execIszero192 s
  | .iszero256 => Sys2Proof.Machine.execIszero256 s
  | .isone128 => Sys2Proof.Machine.execIsone128 s
  | .isone192 => Sys2Proof.Machine.execIsone192 s
  | .isone256 => Sys2Proof.Machine.execIsone256 s
  | .eq128 => Sys2Proof.Machine.execEq128 s
  | .eq192 => Sys2Proof.Machine.execEq192 s
  | .eq256 => Sys2Proof.Machine.execEq256 s
  | .wmul128 => Sys2Proof.Machine.execWmul128 s
  | .wmul192 => Sys2Proof.Machine.execWmul192 s
  | .wmul256 => Sys2Proof.Machine.execWmul256 s
  | .divrem128 => Sys2Proof.Machine.execDivrem128 s
  | .divrem192 => Sys2Proof.Machine.execDivrem192 s
  | .divrem256 => Sys2Proof.Machine.execDivrem256 s
  | .clmul => Sys2Proof.Machine.execClmul s

end Sys2Proof.Machine
end

