-- ==== Sys2Proof/Machine/HostPort.lean ====
section
/-! DEFINITION. The host port and the reset input: what one event does (R25, R43, R44, R64, R170). -/

namespace Sys2Proof.Machine

/-- A write of the word c to CMD executes the command c encodes, whole and at once (R25, R64). -/
def State.command (s : State) (c : Word) : Host.Outcome State Fault Refusal :=
  match decode c with
  | .ok i => exec i s
  | .error _ => .next s.reservedCommand

/-- RegWrite(addr, v) (R44): at CMD a command, elsewhere a register write. -/
def State.regWrite (s : State) (addr : Address) (v : Word) : Host.Outcome State Fault Refusal :=
  if addr = cmdAddress then s.command v else .next (s.regStore addr v)

/-- What one event does. While reset is asserted no host access is accepted: it has no effect and gets no answer
(R170; log 6). -/
def State.perform (s : State) : HostEvent → Host.Outcome State Fault Refusal
  | .read addr => .next (if s.resetIn then s else s.answer (s.regRead addr))
  | .write addr v => if s.resetIn then .next s else s.regWrite addr v
  | .writeBack addr => if s.resetIn then .next s else s.regWrite addr s.lastAnswer
  | .resetAssert => .next { s with resetIn := true }
  | .resetRelease => .next (if s.resetIn then s.releaseReset else s)

/-- One step of the machine: the next event is taken from the list and performed. With no event the engine does
nothing (R72, R162). DESIGN CHOICE (log 15): a reset falls between two events, never inside a command, so a RANDOM.f that
R170 lets a reset interrupt has drawn all L of its words, or none when the reset comes first; the spec does not say how many
an interrupted one has drawn. -/
def State.advance (s : State) : Host.Outcome State Fault Refusal :=
  match s.events with
  | [] => .next s
  | e :: rest => State.perform { s with events := rest } e

/-- s with a write of the command word c to CMD as its next event, and reset not asserted (log 7). -/
def State.withCommand (s : State) (c : Word) : State :=
  { s with resetIn := false, events := .write cmdAddress c :: s.events }

end Sys2Proof.Machine
end

