-- ==== Sys2Proof/Machine/Step.lean ====
section
/-! DEFINITION. The step of the machine, and how an instruction is placed where the next step runs it. -/

namespace Sys2Proof.Machine

/-- One step: one host access or reset event (R18). -/
def step (s : State) : Host.Outcome State Fault Refusal := s.advance

/-- s with the instruction whose bits are w (numbered as spec/opcode_table.json numbers them, the bits above nbits
zero) written to CMD by the very next step. A command is one 16-bit word (R60, R70; log 7). -/
def State.withFetchWord (s : State) (nbits w : Nat) : State :=
  s.withCommand (BitVec.ofNat 16 (w % 2 ^ nbits))

end Sys2Proof.Machine
end

