-- ==== Sys2Proof/Machine/Assembler.lean ====
section
/-! DEFINITION. The assembler notation and pseudo-instructions, as the host accesses they expand to (R71, R72). -/

namespace Sys2Proof.Machine

/-- A statement of the notation (R71) or a pseudo-instruction (R72). -/
inductive Statement where
  /-- WR addr, v -/
  | wr (addr : Address) (v : Word)
  /-- RD addr -/
  | rd (addr : Address)
  /-- MNEMONIC.bits, or CLMUL -/
  | command (i : Instr)
  /-- CMD v -/
  | cmd (v : Word)
  /-- LDA.f and its limb list -/
  | lda (f : FieldSel) (ws : List Word)
  /-- LDB.f and its limb list -/
  | ldb (f : FieldSel) (ws : List Word)
  /-- RDH.f -/
  | rdh (f : FieldSel)
  /-- RDL.f -/
  | rdl (f : FieldSel)
  /-- RDS -/
  | rds
  /-- MVLA.f: the host copies RL to A -/
  | mvla (f : FieldSel)
  /-- MVLB.f: the host copies RL to B -/
  | mvlb (f : FieldSel)
  /-- MVHA.f: the host copies RH to A -/
  | mvha (f : FieldSel)
  deriving DecidableEq, Repr

/-- A limb list has exactly L limbs (R72). -/
def Statement.wellFormed : Statement → Bool
  | .lda f ws | .ldb f ws => ws.length == f.limbs
  | _ => true

/-- The word address base + k. -/
def wordAddress (base k : Nat) : Address := BitVec.ofNat 7 (base + k)

/-- WR base+k, wk for k = 0, 1, ..., L−1 in that order (R72). -/
def loadLimbs (base : Nat) (f : FieldSel) (ws : List Word) : List HostEvent :=
  (List.range f.limbs).map fun k => .write (wordAddress base k) (ws.getD k 0)

/-- RD base+k for k = 0, ..., L−1 (R72). -/
def readLimbs (base : Nat) (f : FieldSel) : List HostEvent :=
  (List.range f.limbs).map fun k => .read (wordAddress base k)

/-- For k = 0, ..., L−1: RD source+k, then WR target+k of the word read (R72). -/
def copyLimbs (source target : Nat) (f : FieldSel) : List HostEvent :=
  (List.range f.limbs).flatMap fun k => [.read (wordAddress source k), .writeBack (wordAddress target k)]

/-- The host accesses a statement stands for, in order (R71, R72). -/
def Statement.expand : Statement → List HostEvent
  | .wr addr v => [.write addr v]
  | .rd addr => [.read addr]
  | .command i => [.write cmdAddress (encode i)]
  | .cmd v => [.write cmdAddress v]
  | .lda f ws => loadLimbs 0x00 f ws
  | .ldb f ws => loadLimbs 0x10 f ws
  | .rdh f => readLimbs 0x20 f
  | .rdl f => readLimbs 0x30 f
  | .rds => [.read statusAddress]
  | .mvla f => copyLimbs 0x30 0x00 f
  | .mvlb f => copyLimbs 0x30 0x10 f
  | .mvha f => copyLimbs 0x20 0x00 f

/-- A program is a finite sequence of statements, performed in order by the host (R72). -/
def programEvents (p : List Statement) : List HostEvent := p.flatMap Statement.expand

end Sys2Proof.Machine
end

