-- ==== Sys2Proof/Machine/Configure.lean ====
section
/-! DEFINITION. Building an engine with three moduli: a configuration without the two properties of R29 is refused, by
name (R29, U1, D24; log 2). -/

namespace Sys2Proof.Machine

/-- Why a configuration is refused (R29, U1). -/
inductive BadModulus where
  /-- MOD(f) is not of degree exactly m(f) -/
  | wrongDegree (f : FieldSel)
  /-- MOD(f) has a nontrivial factorization over GF(2) -/
  | reducible (f : FieldSel)
  deriving DecidableEq, Repr

/-- The configuration with MOD128, MOD192, MOD256 as given, or why it is refused (R29, R30). -/
def configure (mod128 mod192 mod256 : Nat) : Except BadModulus Moduli :=
  if mod128.log2 ≠ 128 then .error (.wrongDegree .f128)
  else if mod192.log2 ≠ 192 then .error (.wrongDegree .f192)
  else if mod256.log2 ≠ 256 then .error (.wrongDegree .f256)
  else if h128 : irreducibleTest 128 [2] (BitVec.ofNat 128 mod128).toNat = true then
    if h192 : irreducibleTest 192 [2, 3] (BitVec.ofNat 192 mod192).toNat = true then
      if h256 : irreducibleTest 256 [2] (BitVec.ofNat 256 mod256).toNat = true then
        .ok { low128 := BitVec.ofNat 128 mod128, low192 := BitVec.ofNat 192 mod192, low256 := BitVec.ofNat 256 mod256
              irreducible128 := h128, irreducible192 := h192, irreducible256 := h256 }
      else .error (.reducible .f256)
    else .error (.reducible .f192)
  else .error (.reducible .f128)

/-- An engine built with these moduli, right after reset (R29, R34). -/
def State.built (c : Moduli) : State := { State.reset with mods := c }

end Sys2Proof.Machine
end

