-- ==== Sys2Proof/Safety.lean ====
section
/-! DEFINITION. The terms the claims use: carryless products bit by bit, valid moduli, and what holds of a state between
steps. None of them calls the model's own arithmetic. -/

namespace Sys2Proof.Machine

/-- Bit k of the carryless product: the XOR over all i+j=k of a[i] AND b[j] (R13, R82). -/
def productBit (a b k : Nat) : Bool :=
  (List.range (k + 1)).foldl (fun acc i => acc ^^ (a.testBit i && b.testBit (k - i))) false

/-- p is the product of a and b as GF(2) polynomials (R13). -/
def IsProduct (p a b : Nat) : Prop := ∀ k, p.testBit k = productBit a b k

/-- n has no nontrivial factorization over GF(2) (R16). -/
def Gf2Irreducible (n : Nat) : Prop := 1 < n ∧ ∀ a b, IsProduct n a b → a = 1 ∨ b = 1

/-- R29's premise on a configuration: MOD(f) has degree exactly m(f) and is irreducible. The type `Moduli` carries it (log 2),
so it holds in every state. -/
def ModulusValid (c : Moduli) (f : FieldSel) : Prop :=
  (c.modulus f).log2 = f.degree ∧ Gf2Irreducible (c.modulus f)

/-- Of the eight combinations of the flags only four can occur: at most one flag is 1 (R26, R154). -/
def Status.AtMostOne (st : Status) : Prop :=
  (st.NONE = true → st.T = false ∧ st.ILL = false) ∧ (st.T = true → st.ILL = false)

/-- What every event keeps: at most one flag is 1 (R154), and a flag that is 1 stands beside cleared results (R68,
R133 to R136). -/
def State.FlagsSound (s : State) : Prop :=
  s.status.AtMostOne ∧
    (s.status.NONE = true ∨ s.status.T = true ∨ s.status.ILL = true → s.rh = Reg.zero ∧ s.rl = Reg.zero)

end Sys2Proof.Machine
end

