-- ==== Sys2Proof/Certificates/Slice0/Obligations.lean ====
section
/-! DEFINITION. The statements for the provers. First the forms several of them share, then the obligations. -/

namespace Sys2Proof.Claims

open Sys2Proof Sys2Proof.Machine

/-- The number that the first L limbs of a register stand for (R12, R23). -/
def value (r : Reg) (L : Nat) : Nat := (r.poly L).val

/-- Words L to 15 of a register are 0 (R24). -/
def ZeroFrom (L : Nat) (r : Reg) : Prop := ∀ k, L ≤ k → k < 16 → r.limb k = 0

/-- d and r differ by a multiple of n: r ≡ d modulo n (R111). -/
def Congruent (n d r : Nat) : Prop := ∃ q, IsProduct (d ^^^ r) q n

/-- s with RH, RL and STATUS written (NONE, T, ILL in this order) and everything else as it was (R22, R24). -/
def written (s : State) (rh rl : Reg) (none t ill : Bool) : State :=
  { s with rh := rh, rl := rl, status := { NONE := none, T := t, ILL := ill } }

/-- ZERO.f: word w decodes to i, and i leaves RH, RL and STATUS zero (R127). -/
def ZeroResult (i : Instr) (w : Word) : Prop :=
  decode w = .ok i ∧ ∀ s, exec i s = .next (written s Reg.zero Reg.zero false false false)

/-- ONE.f: RL[L−1] is 0x0001 and every other word of RL is 0 (R128). -/
def OneResult (i : Instr) (f : FieldSel) (w : Word) : Prop :=
  decode w = .ok i ∧ ∀ s, ∃ rl, exec i s = .next (written s Reg.zero rl false false false)
    ∧ ∀ k < 16, rl.limb k = if k = f.limbs - 1 then 1 else 0

/-- The word of the k-th draw to come: the k-th word waiting at the port, and past those the free word of that draw,
whatever its value (R31; log 3). -/
def comingWord (s : State) (k : Nat) : Word := (s.portWords[k]?).getD (Config.randomWord (s.drawn + k))

/-- The three RANDOM commands. -/
def randomCommands : List (Instr × FieldSel) := [(.random128, .f128), (.random192, .f192), (.random256, .f256)]

/-- RANDOM.f: limb k is the k-th word drawn, for exactly L draws (R129). -/
def RandomResult (i : Instr) (f : FieldSel) (w : Word) : Prop :=
  decode w = .ok i ∧ ∀ s, ∃ rl,
    exec i s = .next { written s Reg.zero rl false false false with
      portWords := s.portWords.drop f.limbs, drawn := s.drawn + f.limbs }
    ∧ (∀ k < f.limbs, rl.limb k = comingWord s k) ∧ ZeroFrom f.limbs rl

/-- ADD.f and SUB.f: RL[k] is A[k] XOR B[k] for k < L, and 0 above (R130, R131). -/
def SumResult (i : Instr) (f : FieldSel) (w : Word) : Prop :=
  decode w = .ok i ∧ ∀ s, ∃ rl, exec i s = .next (written s Reg.zero rl false false false)
    ∧ ∀ k < 16, rl.limb k = if k < f.limbs then s.a.limb k ^^^ s.b.limb k else 0

/-- MUL.f: RL is the residue, of L limbs, of the product of A and B modulo MOD(f) (R132). -/
def MulResult (i : Instr) (f : FieldSel) (w : Word) : Prop :=
  decode w = .ok i ∧ ∀ s,
    ∃ rl p, exec i s = .next (written s Reg.zero rl false false false)
      ∧ IsProduct p (value s.a f.limbs) (value s.b f.limbs)
      ∧ Congruent (s.mods.modulus f) p (value rl f.limbs) ∧ ZeroFrom f.limbs rl

/-- INV.f: for the zero polynomial NONE is 1 and RL is 0; otherwise the product of A and RL is congruent to 1 modulo
MOD(f), RL is the only number below 2^m with that property, and NONE is 0 (R113, R133). -/
def InvResult (i : Instr) (f : FieldSel) (w : Word) : Prop :=
  decode w = .ok i ∧ ∀ s,
    ((∀ k < f.limbs, s.a.limb k = 0) → exec i s = .next (written s Reg.zero Reg.zero true false false))
    ∧ (¬(∀ k < f.limbs, s.a.limb k = 0) →
        ∃ rl p, exec i s = .next (written s Reg.zero rl false false false)
          ∧ IsProduct p (value s.a f.limbs) (value rl f.limbs)
          ∧ Congruent (s.mods.modulus f) p 1 ∧ ZeroFrom f.limbs rl
          ∧ ∀ v q, v < 2 ^ f.degree → IsProduct q (value s.a f.limbs) v → Congruent (s.mods.modulus f) q 1 →
              v = value rl f.limbs)

/-- A predicate command: T says whether P holds, RH and RL are 0 (R134 to R136). -/
def PredicateResult (i : Instr) (w : Word) (P : State → Prop) : Prop :=
  decode w = .ok i ∧ ∀ s, ∃ t, exec i s = .next (written s Reg.zero Reg.zero false t false) ∧ (t = true ↔ P s)

/-- ISZERO.f's predicate (R134). -/
def IsZero (L : Nat) (s : State) : Prop := ∀ k < L, s.a.limb k = 0

/-- ISONE.f's predicate (R135). -/
def IsOne (L : Nat) (s : State) : Prop := s.a.limb (L - 1) = 1 ∧ ∀ k < L - 1, s.a.limb k = 0

/-- EQ.f's predicate (R136). -/
def SameLimbs (L : Nat) (s : State) : Prop := ∀ k < L, s.a.limb k = s.b.limb k

/-- WMUL.f: (RH, RL) is the exact product of A and B (R96). -/
def WmulResult (i : Instr) (f : FieldSel) (w : Word) : Prop :=
  decode w = .ok i ∧ ∀ s, ∃ rh rl, exec i s = .next (written s rh rl false false false)
    ∧ IsProduct (value rh f.limbs * 2 ^ f.degree + value rl f.limbs) (value s.a f.limbs) (value s.b f.limbs)
    ∧ ZeroFrom f.limbs rh ∧ ZeroFrom f.limbs rl

/-- DIVREM.f: dividend (A, B) = RH·MOD(f) XOR RL, and no other quotient and remainder below 2^m do that (R107, R110). -/
def DivremResult (i : Instr) (f : FieldSel) (w : Word) : Prop :=
  decode w = .ok i ∧ ∀ s, ∃ rh rl, exec i s = .next (written s rh rl false false false)
    ∧ IsProduct ((value s.a f.limbs * 2 ^ f.degree + value s.b f.limbs) ^^^ value rl f.limbs) (value rh f.limbs)
        (s.mods.modulus f)
    ∧ ZeroFrom f.limbs rh ∧ ZeroFrom f.limbs rl
    ∧ ∀ q r, r < 2 ^ f.degree →
        IsProduct ((value s.a f.limbs * 2 ^ f.degree + value s.b f.limbs) ^^^ r) q (s.mods.modulus f) →
        q = value rh f.limbs ∧ r = value rl f.limbs

/-- What a command leaves in RL when A holds x and B holds y; `none` where it answers no next state. -/
def rlAfter (i : Instr) (s : State) (x y : Reg) : Option Reg :=
  match exec i { s with a := x, b := y } with
  | .next t => some t.rl
  | _ => none

/-- The 37 legal command words of R65, row by row. -/
def legalWords : List (Word × Instr) :=
  [(0x0000, .zero128), (0x0040, .zero192), (0x0080, .zero256),
    (0x0001, .one128), (0x0041, .one192), (0x0081, .one256),
    (0x0002, .random128), (0x0042, .random192), (0x0082, .random256),
    (0x0003, .add128), (0x0043, .add192), (0x0083, .add256),
    (0x0004, .sub128), (0x0044, .sub192), (0x0084, .sub256),
    (0x0005, .mul128), (0x0045, .mul192), (0x0085, .mul256),
    (0x0006, .inv128), (0x0046, .inv192), (0x0086, .inv256),
    (0x0007, .iszero128), (0x0047, .iszero192), (0x0087, .iszero256),
    (0x0008, .isone128), (0x0048, .isone192), (0x0088, .isone256),
    (0x0009, .eq128), (0x0049, .eq192), (0x0089, .eq256),
    (0x000A, .wmul128), (0x004A, .wmul192), (0x008A, .wmul256),
    (0x000B, .divrem128), (0x004B, .divrem192), (0x008B, .divrem256),
    (0x000C, .clmul)]

/-- The field commands, with the field whose limbs they read (R23). -/
def fieldCommands : List (Instr × FieldSel) :=
  [(.zero128, .f128), (.zero192, .f192), (.zero256, .f256),
    (.one128, .f128), (.one192, .f192), (.one256, .f256),
    (.random128, .f128), (.random192, .f192), (.random256, .f256),
    (.add128, .f128), (.add192, .f192), (.add256, .f256),
    (.sub128, .f128), (.sub192, .f192), (.sub256, .f256),
    (.mul128, .f128), (.mul192, .f192), (.mul256, .f256),
    (.inv128, .f128), (.inv192, .f192), (.inv256, .f256),
    (.iszero128, .f128), (.iszero192, .f192), (.iszero256, .f256),
    (.isone128, .f128), (.isone192, .f192), (.isone256, .f256),
    (.eq128, .f128), (.eq192, .f192), (.eq256, .f256),
    (.wmul128, .f128), (.wmul192, .f192), (.wmul256, .f256),
    (.divrem128, .f128), (.divrem192, .f192), (.divrem256, .f256)]

/-- What RegRead returns at a word address (R43), by the ranges of the address map (R41). -/
def ReadsAs (s : State) (addr : Address) (w : Word) : Prop :=
  (addr.toNat ≤ 0x0F → w = s.a.limb addr.toNat)
  ∧ (0x10 ≤ addr.toNat ∧ addr.toNat ≤ 0x1F → w = s.b.limb (addr.toNat - 0x10))
  ∧ (0x20 ≤ addr.toNat ∧ addr.toNat ≤ 0x2F → w = s.rh.limb (addr.toNat - 0x20))
  ∧ (0x30 ≤ addr.toNat ∧ addr.toNat ≤ 0x3F → w = s.rl.limb (addr.toNat - 0x30))
  ∧ (addr.toNat = 0x40 → w = 0)
  ∧ (addr.toNat = 0x41 → ∀ k < 16, w.getLsbD k =
      if k = 0 then s.status.NONE else if k = 1 then s.status.T else if k = 2 then s.status.ILL else false)
  ∧ (0x42 ≤ addr.toNat → w = 0)

/-- t is s but for one limb of A or B (R44). -/
def Stored (s t : State) (addr : Address) (v : Word) : Prop :=
  (addr.toNat ≤ 0x0F → (∃ x, t = { s with a := x }) ∧ ∀ k < 16, t.a.limb k = if k = addr.toNat then v else s.a.limb k)
  ∧ (0x10 ≤ addr.toNat ∧ addr.toNat ≤ 0x1F →
      (∃ x, t = { s with b := x }) ∧ ∀ k < 16, t.b.limb k = if k = addr.toNat - 0x10 then v else s.b.limb k)
  ∧ (0x20 ≤ addr.toNat → t = s)

/-- The event is an access that writes the word v to addr: a write, or a writeBack of the word read last. -/
def WritesTo (s : State) (e : HostEvent) (addr : Address) (v : Word) : Prop :=
  e = .write addr v ∨ (e = .writeBack addr ∧ v = s.lastAnswer)

end Sys2Proof.Claims

open Sys2Proof Sys2Proof.Machine

/-- Words written out from the table of R65 and from V-ILL decode as the spec says (the names of the errors are the model's, log 11). -/
def Obligations.SomeWordsDecode : Prop :=
  decode 0x0005 = .ok .mul128 ∧ decode 0x004A = .ok .wmul192 ∧ decode 0x008B = .ok .divrem256
    ∧ decode 0x000C = .ok .clmul ∧ decode 0x0000 = .ok .zero128 ∧ decode 0x004C = .error .clmulWithField
    ∧ decode 0x00C5 = .error .reservedField ∧ decode 0x0015 = .error .middleBitsSet
    ∧ decode 0x8005 = .error .highBitsSet

/-- The words that decode are exactly the 37 of R65, each to its row's command. -/
def Obligations.LegalWordsAreTheTable : Prop :=
  ∀ c i, decode c = .ok i ↔ (c, i) ∈ Claims.legalWords

/-- Decoding and encoding agree in both directions, over all 65536 words. -/
def Obligations.DecodeEncodeAgree : Prop :=
  ∀ c i, decode c = .ok i ↔ encode i = c

/-- A word is reserved exactly in the five cases of R67. -/
def Obligations.ReservedWordsAreTheSpecs : Prop :=
  ∀ c : Word, (∃ e, decode c = .error e) ↔
    c.extractLsb' 8 8 ≠ 0 ∨ c.extractLsb' 4 2 ≠ 0
      ∨ (c.extractLsb' 0 4 = 0xD ∨ c.extractLsb' 0 4 = 0xE ∨ c.extractLsb' 0 4 = 0xF)
      ∨ c.extractLsb' 6 2 = 0b11 ∨ (c.extractLsb' 0 4 = 0xC ∧ c.extractLsb' 6 2 ≠ 0b00)

/-- A word decodes exactly when the checks of WellFormed hold of its fields. -/
def Obligations.LegalIffWellFormed : Prop :=
  ∀ c, (∃ i, decode c = .ok i) ↔ (CommandFields.ofWord c).wellFormed = true

/-- Reset leaves A, B, RH, RL and STATUS zero and the moduli as they were. -/
def Obligations.ResetLeavesZero : Prop :=
  (State.reset.a = Reg.zero ∧ State.reset.b = Reg.zero ∧ State.reset.rh = Reg.zero ∧ State.reset.rl = Reg.zero
      ∧ State.reset.status = { NONE := false, T := false, ILL := false } ∧ State.reset.resetIn = false)
    ∧ (∀ k, Reg.zero.limb k = 0)
    ∧ ∀ s rest, s.resetIn = true → s.events = .resetRelease :: rest →
        step s = .next { s with
          a := Reg.zero, b := Reg.zero, rh := Reg.zero, rl := Reg.zero
          status := { NONE := false, T := false, ILL := false }, resetIn := false, events := rest }

/-- While reset is asserted an access changes nothing and gets no answer (model's choice, log 6). -/
def Obligations.NoAccessDuringReset : Prop :=
  ∀ s e rest, s.resetIn = true → s.events = e :: rest → e ≠ .resetRelease → e ≠ .resetAssert →
    step s = .next { s with events := rest }

/-- Asserting reset sets the reset input; releasing it when it is not asserted changes nothing (log 6). -/
def Obligations.ResetInputFollowsItsEvents : Prop :=
  ∀ s rest, (s.events = .resetAssert :: rest → step s = .next { s with resetIn := true, events := rest })
    ∧ (s.resetIn = false → s.events = .resetRelease :: rest → step s = .next { s with events := rest })

/-- A step on a write of a legal word to CMD is exec of the decoded command. -/
def Obligations.StepRunsDecodedCommand : Prop :=
  ∀ s e rest c i, s.resetIn = false → s.events = e :: rest → Claims.WritesTo s e 0x40 c → decode c = .ok i →
    step s = exec i { s with events := rest }

/-- withFetchWord places a command that the very next step runs. -/
def Obligations.FetchedWordRuns : Prop :=
  ∀ (s : State) (w : Nat) i, decodeTableWord 16 w = some i →
    step (s.withFetchWord 16 w) = exec i { s with resetIn := false }

/-- A reserved word clears RH and RL, sets ILL alone, and changes nothing else. -/
def Obligations.ReservedWordSetsIll : Prop :=
  (∀ s e rest c, s.resetIn = false → s.events = e :: rest → Claims.WritesTo s e 0x40 c →
    (¬∃ i, decode c = .ok i) →
    step s = .next (Claims.written { s with events := rest } Reg.zero Reg.zero false false true))
    ∧ ∀ i s, ∃ t, exec i s = .next t ∧ t.status.ILL = false

/-- With no event listed a step changes nothing. -/
def Obligations.IdleStepChangesNothing : Prop :=
  ∀ s, s.events = [] → step s = .next s

/-- RegRead returns the word the address map names and changes no register. -/
def Obligations.ReadReturnsMappedWord : Prop :=
  ∀ s addr rest, s.resetIn = false → s.events = .read addr :: rest →
    ∃ w, step s = .next { s with events := rest, answers := w :: s.answers } ∧ Claims.ReadsAs s addr w

/-- RegWrite outside CMD writes one limb of A or B, or has no effect. -/
def Obligations.WriteStoresOrIsIgnored : Prop :=
  ∀ s e rest addr v, s.resetIn = false → s.events = e :: rest → Claims.WritesTo s e addr v → addr ≠ 0x40 →
    ∃ t, step s = .next t ∧ Claims.Stored { s with events := rest } t addr v

/-- A read of a word of A or B returns the word just written there. -/
def Obligations.ReadAfterWrite : Prop :=
  ∀ s addr v rest, s.resetIn = false → addr.toNat < 0x20 → s.events = .write addr v :: .read addr :: rest →
    ∃ t, Sys2Proof.core.run 2 s = .next t ∧ t.answers = v :: s.answers ∧ t.events = rest

/-- No step faults or refuses: the engine raises no exception. -/
def Obligations.NoStepStops : Prop :=
  (∀ s, ∃ t, step s = .next t) ∧ ∀ i s, ∃ t, exec i s = .next t

/-- No command writes A or B, the moduli, the host port or the reset input. -/
def Obligations.CommandsWriteOnlyResults : Prop :=
  ∀ i s, ∃ t, exec i s = .next t ∧ t.a = s.a ∧ t.b = s.b ∧ t.mods = s.mods ∧ t.resetIn = s.resetIn
    ∧ t.events = s.events ∧ t.answers = s.answers ∧ ∀ addr : Address, addr.toNat < 0x20 → t.regRead addr = s.regRead addr

/-- RANDOM.f draws exactly L words; no other command draws any. -/
def Obligations.OnlyRandomDraws : Prop :=
  ∀ i s, ∃ t n, exec i s = .next t ∧ t.drawn = s.drawn + n ∧ t.portWords = s.portWords.drop n
    ∧ n = (if i = .random128 then 8 else if i = .random192 then 12 else if i = .random256 then 16 else 0)

/-- Every step keeps: at most one flag is 1, and a flag stands beside cleared results. -/
def Obligations.FlagsSoundKeptByEveryStep : Prop :=
  (∀ s t : State, s.FlagsSound → step s = .next t → t.FlagsSound)
    ∧ (∀ i s t, exec i s = .next t → t.status.AtMostOne)
    ∧ (∀ (s : State) (c : Word), ∃ t : State, s.command c = .next t ∧ t.FlagsSound)
    ∧ (∀ i s t, exec i s = .next t →
        (t.status.NONE = true → i ∈ [Instr.inv128, .inv192, .inv256])
        ∧ (t.status.T = true → i ∈ [Instr.iszero128, .iszero192, .iszero256, .isone128, .isone192, .isone256, .eq128,
            .eq192, .eq256])
        ∧ t.status.ILL = false)
    ∧ ∀ (s : State) (c : Word), (¬∃ i, decode c = .ok i) →
        s.command c = .next (Claims.written s Reg.zero Reg.zero false false true)

/-- The invariant of the flags holds at reset. -/
def Obligations.FlagsSoundAtReset : Prop :=
  State.reset.FlagsSound

/-- A word of A or B changes only by a write to its address or by the release of reset. -/
def Obligations.OperandsChangeOnlyByHostOrReset : Prop :=
  (∀ s t addr, step s = .next t → addr.toNat < 0x20 → t.regRead addr ≠ s.regRead addr →
    ∃ e rest, s.events = e :: rest ∧
      ((s.resetIn = false ∧ Claims.WritesTo s e addr (t.regRead addr)) ∨ (s.resetIn = true ∧ e = .resetRelease)))
    ∧ ∀ i s, ∃ t, exec i s = .next t ∧ t = { s with
        rh := t.rh, rl := t.rl, status := t.status, portWords := t.portWords, drawn := t.drawn }

/-- RH, RL and STATUS change only by a write to CMD or by the release of reset. -/
def Obligations.ResultsChangeOnlyByCommandOrReset : Prop :=
  ∀ s t, step s = .next t → (t.rh ≠ s.rh ∨ t.rl ≠ s.rl ∨ t.status ≠ s.status) →
    ∃ e rest, s.events = e :: rest ∧
      ((s.resetIn = false ∧ ∃ c, Claims.WritesTo s e 0x40 c) ∨ (s.resetIn = true ∧ e = .resetRelease))

/-- No step and no command changes the moduli, no read returns them, and they are valid in every state. -/
def Obligations.ModuliNeverChange : Prop :=
  (∀ s t, step s = .next t → t.mods = s.mods) ∧ (∀ i s t, exec i s = .next t → t.mods = s.mods)
    ∧ (∀ (s : State) (c : Moduli) (addr : Address), ({ s with mods := c } : State).regRead addr = s.regRead addr)
    ∧ ∀ (s : State) (f : FieldSel), ModulusValid s.mods f

/-- MOD(f) is (ONE_L, low half), of degree exactly m. -/
def Obligations.ModulusStandsInTwoHalves : Prop :=
  ∀ (c : Moduli) (f : FieldSel),
    Poly.wideVal (Poly.one f.limbs) (Poly.ofNat f.limbs (c.modulus f - 2 ^ f.degree)) = c.modulus f
    ∧ deg (c.modulus f) = f.degree

/-- val_L places limb 0 highest, bit by bit, and limbs_L is its inverse. -/
def Obligations.ValueBitsAreLimbBits : Prop :=
  ∀ (f : FieldSel) (p : Poly f.limbs),
    (∀ d, d < 16 * f.limbs →
      p.val.testBit d = ((p[f.limbs - 1 - d / 16]?).getD 0).getLsbD (d % 16))
    ∧ p.val < 2 ^ (16 * f.limbs)
    ∧ p.val = ((List.finRange f.limbs).map fun k => p[k].toNat * 2 ^ (16 * (f.limbs - 1 - k.1))).sum
    ∧ Poly.ofNat f.limbs p.val = p
    ∧ ∀ v, v < 2 ^ (16 * f.limbs) → (Poly.ofNat f.limbs v).val = v
      ∧ ∀ k : Fin f.limbs, (Poly.ofNat f.limbs v)[k].toNat = (v >>> (16 * (f.limbs - 1 - k.1))) % 2 ^ 16

/-- ZERO.f leaves RL, RH and STATUS zero. -/
def Obligations.ZeroClearsResults : Prop :=
  Claims.ZeroResult .zero128 0x0000 ∧ Claims.ZeroResult .zero192 0x0040 ∧ Claims.ZeroResult .zero256 0x0080

/-- ONE.f leaves ONE_L in RL: word L−1 is 1, every other word 0. -/
def Obligations.OneWritesLowestLimb : Prop :=
  Claims.OneResult .one128 .f128 0x0001 ∧ Claims.OneResult .one192 .f192 0x0041 ∧ Claims.OneResult .one256 .f256 0x0081

/-- RANDOM.f puts the k-th drawn word into limb k, for exactly L draws. -/
def Obligations.RandomFillsLimbsInDrawOrder : Prop :=
  Claims.RandomResult .random128 .f128 0x0002 ∧ Claims.RandomResult .random192 .f192 0x0042 ∧ Claims.RandomResult .random256 .f256 0x0082

/-- Two RANDOM commands, of any two fields, draw disjoint, consecutive words. -/
def Obligations.RandomContinuesTheStream : Prop :=
  ∀ i f j g, (i, f) ∈ Claims.randomCommands → (j, g) ∈ Claims.randomCommands → ∀ s, ∃ t u,
    exec i s = .next t ∧ exec j t = .next u
    ∧ u.drawn = s.drawn + f.limbs + g.limbs ∧ u.portWords = s.portWords.drop (f.limbs + g.limbs)
    ∧ (∀ k < f.limbs, t.rl.limb k = Claims.comingWord s k) ∧ Claims.ZeroFrom f.limbs t.rl
    ∧ (∀ k < g.limbs, u.rl.limb k = Claims.comingWord s (f.limbs + k)) ∧ Claims.ZeroFrom g.limbs u.rl

/-- ADD.f writes A[k] XOR B[k] for k < L, and 0 above. -/
def Obligations.AddWritesXorOfLimbs : Prop :=
  Claims.SumResult .add128 .f128 0x0003 ∧ Claims.SumResult .add192 .f192 0x0043 ∧ Claims.SumResult .add256 .f256 0x0083

/-- SUB.f writes the same XOR as ADD.f. -/
def Obligations.SubWritesXorOfLimbs : Prop :=
  Claims.SumResult .sub128 .f128 0x0004 ∧ Claims.SumResult .sub192 .f192 0x0044 ∧ Claims.SumResult .sub256 .f256 0x0084
    ∧ ∀ s, exec .sub128 s = exec .add128 s ∧ exec .sub192 s = exec .add192 s ∧ exec .sub256 s = exec .add256 s

/-- MUL.f leaves in RL the product of A and B reduced modulo MOD(f). -/
def Obligations.MulIsProductModuloTheField : Prop :=
  Claims.MulResult .mul128 .f128 0x0005 ∧ Claims.MulResult .mul192 .f192 0x0045 ∧ Claims.MulResult .mul256 .f256 0x0085

/-- INV.f leaves the inverse of A in RL, or NONE for zero. -/
def Obligations.InvIsTheInverse : Prop :=
  Claims.InvResult .inv128 .f128 0x0006 ∧ Claims.InvResult .inv192 .f192 0x0046 ∧ Claims.InvResult .inv256 .f256 0x0086

/-- INV.f of the inverse is the element itself. -/
def Obligations.InvIsAnInvolution : Prop :=
  ∀ i f, (i, f) ∈ [(Instr.inv128, FieldSel.f128), (.inv192, .f192), (.inv256, .f256)] → ∀ s : State,
    ¬Claims.IsZero f.limbs s → ∃ t u, exec i s = .next t ∧ exec i { t with a := t.rl } = .next u
      ∧ u.rl.poly f.limbs = s.a.poly f.limbs ∧ u.status.NONE = false

/-- ISZERO.f sets T exactly when A[0..L) is zero. -/
def Obligations.IszeroTestsItsLimbs : Prop :=
  Claims.PredicateResult .iszero128 0x0007 (Claims.IsZero 8) ∧ Claims.PredicateResult .iszero192 0x0047 (Claims.IsZero 12) ∧ Claims.PredicateResult .iszero256 0x0087 (Claims.IsZero 16)

/-- ISONE.f sets T exactly when A[0..L) is ONE_L. -/
def Obligations.IsoneTestsItsLimbs : Prop :=
  Claims.PredicateResult .isone128 0x0008 (Claims.IsOne 8) ∧ Claims.PredicateResult .isone192 0x0048 (Claims.IsOne 12) ∧ Claims.PredicateResult .isone256 0x0088 (Claims.IsOne 16)

/-- EQ.f sets T exactly when A[0..L) and B[0..L) agree. -/
def Obligations.EqComparesItsLimbs : Prop :=
  Claims.PredicateResult .eq128 0x0009 (Claims.SameLimbs 8) ∧ Claims.PredicateResult .eq192 0x0049 (Claims.SameLimbs 12) ∧ Claims.PredicateResult .eq256 0x0089 (Claims.SameLimbs 16)

/-- WMUL.f leaves the exact carryless product in (RH, RL). -/
def Obligations.WmulIsTheExactProduct : Prop :=
  Claims.WmulResult .wmul128 .f128 0x000A ∧ Claims.WmulResult .wmul192 .f192 0x004A ∧ Claims.WmulResult .wmul256 .f256 0x008A

/-- DIVREM.f leaves quotient and remainder of (A, B) by MOD(f) in (RH, RL). -/
def Obligations.DivremSplitsTheDividend : Prop :=
  Claims.DivremResult .divrem128 .f128 0x000B ∧ Claims.DivremResult .divrem192 .f192 0x004B ∧ Claims.DivremResult .divrem256 .f256 0x008B

/-- CLMUL leaves the carryless product of A[0] and B[0] in RH[0]:RL[0]. -/
def Obligations.ClmulIsTheWordProduct : Prop :=
  decode 0x000C = .ok .clmul ∧ ∀ s, ∃ rh rl, exec .clmul s = .next (Claims.written s rh rl false false false)
    ∧ IsProduct ((rh.limb 0).toNat * 2 ^ 16 + (rl.limb 0).toNat) (s.a.limb 0).toNat (s.b.limb 0).toNat
    ∧ Claims.ZeroFrom 1 rh ∧ Claims.ZeroFrom 1 rl

/-- wshl(a, i) is the 32-bit value a·2^i in two words, for i up to 16. -/
def Obligations.WideningShiftLosesNoBit : Prop :=
  ∀ (a : Word) (i : Nat), i ≤ 16 → (wshl a i).1.toNat * 2 ^ 16 + (wshl a i).2.toNat = a.toNat * 2 ^ i
    ∧ wshl a 0 = (0, a) ∧ wshl a 16 = (a, 0)

/-- The listed properties of the word multiply. -/
def Obligations.ClmulProperties : Prop :=
  (∀ x, clmul 0 x = (0, 0) ∧ clmul x 0 = (0, 0) ∧ clmul 1 x = (0, x) ∧ clmul x 1 = (0, x))
    ∧ (∀ a b, clmul a b = clmul b a ∧ (clmul a b).1.getLsbD 15 = false
      ∧ IsProduct ((clmul a b).1.toNat * 2 ^ 16 + (clmul a b).2.toNat) a.toNat b.toNat)
    ∧ (∀ a b c, clmul a (b ^^^ c) = ((clmul a b).1 ^^^ (clmul a c).1, (clmul a b).2 ^^^ (clmul a c).2))
    ∧ clmul 15 15 = (0x0000, 0x0055) ∧ clmul 0xFFFF 0xFFFF = (0x5555, 0x5555)

/-- The listed properties of the widening multiply. -/
def Obligations.WmulProperties : Prop :=
  ∀ (f : FieldSel) (a b c : Poly f.limbs),
    wmul a b = wmul b a
    ∧ wmul a (Poly.zero f.limbs) = (Poly.zero f.limbs, Poly.zero f.limbs)
    ∧ wmul a (Poly.one f.limbs) = (Poly.zero f.limbs, a)
    ∧ (((wmul a b).1[0]?).getD 0).getLsbD 15 = false
    ∧ IsProduct (Poly.wideVal (wmul a b).1 (wmul a b).2) a.val b.val
    ∧ wmul a (Poly.add b c) = (Poly.add (wmul a b).1 (wmul a c).1, Poly.add (wmul a b).2 (wmul a c).2)
    ∧ wmul (Poly.add b c) a = (Poly.add (wmul b a).1 (wmul c a).1, Poly.add (wmul b a).2 (wmul c a).2)
    ∧ (∀ d, (Poly.wideVal (wmul a a).1 (wmul a a).2).testBit (2 * d) = a.val.testBit d)
    ∧ (∀ d, (Poly.wideVal (wmul a a).1 (wmul a a).2).testBit (2 * d + 1) = false)
    ∧ (∀ k : Fin f.limbs, (wmul (Poly.ofNat f.limbs (2 ^ f.degree - 1)) (Poly.ofNat f.limbs (2 ^ f.degree - 1))).1[k] = 0x5555
      ∧ (wmul (Poly.ofNat f.limbs (2 ^ f.degree - 1)) (Poly.ofNat f.limbs (2 ^ f.degree - 1))).2[k] = 0x5555)

/-- deg(v) is the highest set bit, and −1 for zero. -/
def Obligations.DegreeIsTheHighestBit : Prop :=
  deg 0 = -1 ∧ ∀ v d : Nat, deg v = d ↔ v.testBit d = true ∧ ∀ j, d < j → v.testBit j = false

/-- The division ends in at most m iterations and the Euclidean loop in at most m rounds. -/
def Obligations.LoopBoundsAreEnough : Prop :=
  ∀ m n j : Nat, n ≠ 0 → n.log2 = m →
    (∀ d, d < 2 ^ (2 * m) → divLoop n m (m + j) 0 d = divrem m d n)
    ∧ ∀ a, a < 2 ^ m → euclidLoop (m + j) n a 0 1 = euclidLoop m n a 0 1

/-- A field command's result does not depend on limbs at or above L, nor on RH, RL, STATUS. -/
def Obligations.LimbsAboveLAreNotRead : Prop :=
  ∀ i f, (i, f) ∈ Claims.fieldCommands → ∀ s s' : State,
    s.mods = s'.mods → s.portWords = s'.portWords → s.drawn = s'.drawn →
    (∀ k < f.limbs, s.a.limb k = s'.a.limb k ∧ s.b.limb k = s'.b.limb k) →
    ∃ t t', exec i s = .next t ∧ exec i s' = .next t' ∧ t.rh = t'.rh ∧ t.rl = t'.rl ∧ t.status = t'.status
      ∧ t.portWords = t'.portWords ∧ t.drawn = t'.drawn

/-- No command reads RH, RL or STATUS. -/
def Obligations.ResultsAreNotOperands : Prop :=
  ∀ i s rh rl st, exec i { s with rh := rh, rl := rl, status := st } = exec i s

/-- A command other than RANDOM, executed again, leaves the same state. -/
def Obligations.RepeatedCommandGivesTheSame : Prop :=
  ∀ i s, i ≠ .random128 → i ≠ .random192 → i ≠ .random256 → ∃ t, exec i s = .next t ∧ exec i t = .next t

/-- MUL.f equals WMUL.f followed by DIVREM.f on its result. -/
def Obligations.MulIsWmulThenDivrem : Prop :=
  ∀ m w d f, (m, w, d, f) ∈ [(Instr.mul128, Instr.wmul128, Instr.divrem128, FieldSel.f128),
      (.mul192, .wmul192, .divrem192, .f192), (.mul256, .wmul256, .divrem256, .f256)] →
    ∀ s, ∃ t u v, exec m s = .next t ∧ exec w s = .next u
      ∧ exec d { u with a := u.rh, b := u.rl } = .next v ∧ v.rl = t.rl

/-- ADD.f and SUB.f make the elements a commutative group in which a+a = ZERO. -/
def Obligations.AdditionIsAGroup : Prop :=
  ∀ i i' f, (i, i', f) ∈ [(Instr.add128, Instr.sub128, FieldSel.f128), (.add192, .sub192, .f192),
      (.add256, .sub256, .f256)] → ∀ (s : State) (x y z : Reg), ∃ xy yz : Reg,
    Claims.rlAfter i s x y = some xy ∧ Claims.rlAfter i s y x = some xy ∧ Claims.rlAfter i' s x y = some xy
    ∧ Claims.rlAfter i s y z = some yz ∧ Claims.rlAfter i s xy z = Claims.rlAfter i s x yz
    ∧ Claims.rlAfter i s x x = some Reg.zero
    ∧ ∃ x', Claims.rlAfter i s x Reg.zero = some x' ∧ x'.poly f.limbs = x.poly f.limbs

/-- MUL.f, ADD.f and INV.f obey the field laws. -/
def Obligations.MultiplicationObeysTheFieldLaws : Prop :=
  ∀ m a v f, (m, a, v, f) ∈ [(Instr.mul128, Instr.add128, Instr.inv128, FieldSel.f128),
      (.mul192, .add192, .inv192, .f192), (.mul256, .add256, .inv256, .f256)] →
    ∀ (s : State) (x y z one : Reg), one.poly f.limbs = Poly.one f.limbs →
    ∃ xy xz yz ysz : Reg,
      Claims.rlAfter m s x y = some xy ∧ Claims.rlAfter m s y x = some xy
      ∧ Claims.rlAfter m s x z = some xz ∧ Claims.rlAfter m s y z = some yz ∧ Claims.rlAfter a s y z = some ysz
      ∧ Claims.rlAfter m s x ysz = Claims.rlAfter a s xy xz
      ∧ Claims.rlAfter m s xy z = Claims.rlAfter m s x yz
      ∧ (∃ x', Claims.rlAfter m s x one = some x' ∧ x'.poly f.limbs = x.poly f.limbs)
      ∧ ∃ t, exec v { s with a := x } = .next t
        ∧ (t.status.NONE = true ↔ x.poly f.limbs = Poly.zero f.limbs)
        ∧ (x.poly f.limbs ≠ Poly.zero f.limbs →
            ∃ p, Claims.rlAfter m s x t.rl = some p ∧ p.poly f.limbs = Poly.one f.limbs)

/-- MUL.f with a zero operand leaves zero. -/
def Obligations.MulWithZeroIsZero : Prop :=
  ∀ m f, (m, f) ∈ [(Instr.mul128, FieldSel.f128), (.mul192, .f192), (.mul256, .f256)] →
    ∀ (s : State) (x z : Reg), z.poly f.limbs = Poly.zero f.limbs →
    Claims.rlAfter m s x z = some Reg.zero ∧ Claims.rlAfter m s z x = some Reg.zero

/-- DIVREM.f of a dividend of degree below m leaves quotient 0 and the dividend itself. -/
def Obligations.DivremOfSmallDividend : Prop :=
  ∀ i f, (i, f) ∈ [(Instr.divrem128, FieldSel.f128), (.divrem192, .f192), (.divrem256, .f256)] →
    ∀ s, Claims.IsZero f.limbs s →
    ∃ t, exec i s = .next t ∧ t.rh = Reg.zero ∧ t.rl.poly f.limbs = s.b.poly f.limbs

/-- EQ.f is true exactly when ADD.f of the same operands gives ZERO. -/
def Obligations.EqIsAddGivesZero : Prop :=
  ∀ e a, (e, a) ∈ [(Instr.eq128, Instr.add128), (.eq192, .add192), (.eq256, .add256)] →
    ∀ s, ∃ t u, exec e s = .next t ∧ exec a s = .next u ∧ (t.status.T = true ↔ u.rl = Reg.zero)

/-- MVLA.f, MVLB.f and MVHA.f copy the L limbs of a result register to an operand register. -/
def Obligations.CopiesMoveResultsToOperands : Prop :=
  ∀ (f : FieldSel) (s : State) (rest : List HostEvent), s.resetIn = false →
    (s.events = (Statement.mvla f).expand ++ rest →
      ∃ r ans, Sys2Proof.core.run (2 * f.limbs) s = .next { s with a := r, events := rest, answers := ans }
        ∧ ∀ k < 16, r.limb k = if k < f.limbs then s.rl.limb k else s.a.limb k)
    ∧ (s.events = (Statement.mvlb f).expand ++ rest →
      ∃ r ans, Sys2Proof.core.run (2 * f.limbs) s = .next { s with b := r, events := rest, answers := ans }
        ∧ ∀ k < 16, r.limb k = if k < f.limbs then s.rl.limb k else s.b.limb k)
    ∧ (s.events = (Statement.mvha f).expand ++ rest →
      ∃ r ans, Sys2Proof.core.run (2 * f.limbs) s = .next { s with a := r, events := rest, answers := ans }
        ∧ ∀ k < 16, r.limb k = if k < f.limbs then s.rh.limb k else s.a.limb k)

/-- A configuration is accepted exactly when every modulus has its degree and is irreducible. -/
def Obligations.ConfigurationRefusesInvalidModuli : Prop :=
  ∀ mod128 mod192 mod256 : Nat,
    ((∃ c, configure mod128 mod192 mod256 = .ok c) ↔
      (mod128.log2 = 128 ∧ Gf2Irreducible mod128) ∧ (mod192.log2 = 192 ∧ Gf2Irreducible mod192)
        ∧ mod256.log2 = 256 ∧ Gf2Irreducible mod256)
    ∧ ∀ c, configure mod128 mod192 mod256 = .ok c →
      State.built c = { State.reset with mods := (State.built c).mods } ∧ (State.built c).mods.modulus .f128 = mod128
        ∧ (State.built c).mods.modulus .f192 = mod192 ∧ (State.built c).mods.modulus .f256 = mod256
end

