-- ==== Sys2Proof/Laws/Gf2.lean ====
section
/-! SUPPORT. The numbers of R13 as polynomials over ZMod 2: XOR is addition, shifts are powers of X, `cl` is the product,
and `deg` the degree. Later proofs reason in `Polynomial (ZMod 2)` and cite these. -/

namespace Sys2Proof.Laws

open Sys2Proof.Machine Polynomial

/-- The polynomial a number stands for: bit k is the coefficient of X^k (R13). -/
noncomputable def toPoly (n : Nat) : (ZMod 2)[X] :=
  ∑ i ∈ Finset.range (n.log2 + 1), if n.testBit i then X ^ i else 0

/-- A bit as an element of GF(2). -/
def bitVal (b : Bool) : ZMod 2 := if b then 1 else 0

theorem bitVal_xor (a b : Bool) : bitVal (a ^^ b) = bitVal a + bitVal b := by
  cases a <;> cases b <;> decide

theorem bitVal_and (a b : Bool) : bitVal (a && b) = bitVal a * bitVal b := by
  cases a <;> cases b <;> decide

theorem bitVal_injective : Function.Injective bitVal := by
  intro a b h; cases a <;> cases b <;> simp_all [bitVal]

theorem testBit_above_log2 {n k : Nat} (h : n.log2 < k) : n.testBit k = false := by
  apply Nat.testBit_lt_two_pow
  exact Nat.lt_of_lt_of_le Nat.lt_log2_self (Nat.pow_le_pow_right (by omega) (by omega))

theorem coeff_toPoly (n k : Nat) : (toPoly n).coeff k = bitVal (n.testBit k) := by
  rw [toPoly, finsetSum_coeff]
  have hterm : ∀ i, (if n.testBit i then (X : (ZMod 2)[X]) ^ i else 0).coeff k
      = if k = i then bitVal (n.testBit k) else 0 := by
    intro i
    by_cases hki : k = i
    · subst hki; cases h : n.testBit k <;> simp [bitVal]
    · cases h : n.testBit i <;> simp [hki, coeff_X_pow]
  simp only [hterm, Finset.sum_ite_eq, Finset.mem_range]
  split
  · rfl
  · rw [testBit_above_log2 (by omega)]; rfl

theorem toPoly_injective : Function.Injective toPoly := by
  intro a b h
  apply Nat.eq_of_testBit_eq
  intro i
  have := congrArg (fun p => p.coeff i) h
  simp only [coeff_toPoly] at this
  exact bitVal_injective this

theorem toPoly_surjective : Function.Surjective toPoly := by
  intro P
  refine ⟨Nat.ofBits fun i : Fin (P.natDegree + 1) => decide (P.coeff i.1 = 1), ?_⟩
  ext k
  rw [coeff_toPoly, Nat.testBit_ofBits]
  have key : ∀ c : ZMod 2, bitVal (decide (c = 1)) = c := by decide
  split
  · exact key _
  · rw [coeff_eq_zero_of_natDegree_lt (by omega)]; rfl

@[simp] theorem toPoly_zero : toPoly 0 = 0 := by ext k; simp [coeff_toPoly, bitVal]

@[simp] theorem toPoly_xor (a b : Nat) : toPoly (a ^^^ b) = toPoly a + toPoly b := by
  ext k; simp [coeff_toPoly, bitVal_xor]

@[simp] theorem toPoly_shiftLeft (a s : Nat) : toPoly (a <<< s) = toPoly a * X ^ s := by
  ext k
  rw [coeff_mul_X_pow', coeff_toPoly, Nat.testBit_shiftLeft]
  by_cases h : s ≤ k <;> simp [h, coeff_toPoly, bitVal]

@[simp] theorem toPoly_one : toPoly 1 = 1 := by
  ext k
  have h1 : Nat.testBit 1 k = decide (0 = k) := Nat.testBit_two_pow (n := 0)
  rw [coeff_toPoly, coeff_one, h1]
  by_cases h : k = 0 <;> simp [h, bitVal, Ne.symm]

theorem toPoly_two : toPoly 2 = X := by
  have h := toPoly_shiftLeft 1 1
  simpa using h

theorem toPoly_eq_zero {n : Nat} : toPoly n = 0 ↔ n = 0 :=
  ⟨fun h => toPoly_injective (by simpa using h), by rintro rfl; simp⟩

theorem toPoly_eq_one {n : Nat} : toPoly n = 1 ↔ n = 1 :=
  ⟨fun h => toPoly_injective (by simpa using h), by rintro rfl; simp⟩

theorem natDegree_toPoly (n : Nat) : (toPoly n).natDegree = n.log2 := by
  by_cases h : n = 0
  · subst h; simp [Nat.log2_zero]
  · apply natDegree_eq_of_le_of_coeff_ne_zero
    · rw [natDegree_le_iff_coeff_eq_zero]
      intro k hk
      rw [coeff_toPoly, testBit_above_log2 hk]; rfl
    · rw [coeff_toPoly, Nat.testBit_log2 h]; decide

/-- Folding XOR over a list of shifts adds the shifted polynomials. -/
theorem toPoly_clFold (a b : Nat) (l : List Nat) (acc : Nat) :
    toPoly (l.foldl (clStep a b) acc)
      = toPoly acc + toPoly a * (l.map fun i => if b.testBit i then (X : (ZMod 2)[X]) ^ i else 0).sum := by
  induction l generalizing acc with
  | nil => simp
  | cons i l ih =>
    rw [List.foldl_cons, ih, List.map_cons, List.sum_cons, clStep]
    split <;> simp [mul_add, add_assoc]

/-- `cl` is the product of polynomials. -/
theorem toPoly_cl (a b : Nat) : toPoly (cl a b) = toPoly a * toPoly b := by
  have hsum : toPoly b
      = ((List.range (b.log2 + 1)).map fun i => if b.testBit i then (X : (ZMod 2)[X]) ^ i else 0).sum := by
    simp [toPoly, Finset.sum, Finset.range, Multiset.range]
  rw [cl, toPoly_clFold, ← hsum]; simp

/-- The XOR fold of `productBit` is a coefficient of the product. -/
theorem bitVal_productBit (a b k : Nat) : bitVal (productBit a b k) = (toPoly a * toPoly b).coeff k := by
  have hfold : ∀ (l : List Nat) (acc : Bool),
      bitVal (l.foldl (fun acc i => acc ^^ (a.testBit i && b.testBit (k - i))) acc)
        = bitVal acc + (l.map fun i => (toPoly a).coeff i * (toPoly b).coeff (k - i)).sum := by
    intro l
    induction l with
    | nil => simp
    | cons i l ih =>
      intro acc
      rw [List.foldl_cons, ih, List.map_cons, List.sum_cons, bitVal_xor, bitVal_and, coeff_toPoly, coeff_toPoly,
        add_assoc]
  rw [productBit, hfold, coeff_mul, Finset.Nat.sum_antidiagonal_eq_sum_range_succ
    (fun i j => (toPoly a).coeff i * (toPoly b).coeff j)]
  simp [bitVal, Finset.sum, Finset.range, Multiset.range]

/-- `IsProduct` is multiplication of polynomials. -/
theorem isProduct_iff (p a b : Nat) : IsProduct p a b ↔ toPoly p = toPoly a * toPoly b := by
  constructor
  · intro h
    ext k
    rw [coeff_toPoly, h k, bitVal_productBit]
  · intro h k
    apply bitVal_injective
    rw [bitVal_productBit, ← h, coeff_toPoly]

/-- `cl` meets the definition of the carryless product (R13). -/
theorem cl_isProduct (a b : Nat) : IsProduct (cl a b) a b := (isProduct_iff _ _ _).2 (toPoly_cl a b)

/-- The product is unique, so a number that is a product is `cl`. -/
theorem isProduct_unique {p a b : Nat} : IsProduct p a b ↔ p = cl a b := by
  rw [isProduct_iff, ← toPoly_cl]
  exact toPoly_injective.eq_iff

theorem cl_comm (a b : Nat) : cl a b = cl b a := toPoly_injective (by simp only [toPoly_cl]; ring)

theorem cl_assoc (a b c : Nat) : cl (cl a b) c = cl a (cl b c) :=
  toPoly_injective (by simp only [toPoly_cl]; ring)

theorem cl_xor (a b c : Nat) : cl a (b ^^^ c) = cl a b ^^^ cl a c :=
  toPoly_injective (by simp only [toPoly_cl, toPoly_xor]; ring)

@[simp] theorem cl_zero (a : Nat) : cl a 0 = 0 := toPoly_injective (by simp [toPoly_cl])

@[simp] theorem zero_cl (a : Nat) : cl 0 a = 0 := toPoly_injective (by simp [toPoly_cl])

@[simp] theorem cl_one (a : Nat) : cl a 1 = a := toPoly_injective (by simp [toPoly_cl])

@[simp] theorem one_cl (a : Nat) : cl 1 a = a := toPoly_injective (by simp [toPoly_cl])

/-- The only unit over GF(2) is 1. -/
theorem isUnit_toPoly {c : Nat} : IsUnit (toPoly c) ↔ c = 1 := by
  rw [← toPoly_eq_one]
  refine ⟨fun h => ?_, fun h => h ▸ isUnit_one⟩
  obtain ⟨u, hu, hc⟩ := Polynomial.isUnit_iff.1 h
  have : ∀ u : ZMod 2, IsUnit u → u = 1 := by decide
  rw [← hc, this u hu, map_one]

/-- Irreducibility in the claims' terms is irreducibility of the polynomial. -/
theorem gf2Irreducible_iff (n : Nat) : Gf2Irreducible n ↔ Irreducible (toPoly n) := by
  constructor
  · rintro ⟨h1, hf⟩
    refine ⟨fun h => by rw [isUnit_toPoly.1 h] at h1; omega, fun {p q} hpq => ?_⟩
    obtain ⟨a, rfl⟩ := toPoly_surjective p
    obtain ⟨b, rfl⟩ := toPoly_surjective q
    rw [isUnit_toPoly, isUnit_toPoly]
    exact hf a b ((isProduct_iff _ _ _).2 hpq)
  · intro h
    refine ⟨?_, fun a b hab => ?_⟩
    · have h0 : n ≠ 0 := by rintro rfl; exact h.ne_zero toPoly_zero
      have h1 : n ≠ 1 := by rintro rfl; exact h.not_isUnit (isUnit_toPoly.2 rfl)
      omega
    · have := h.isUnit_or_isUnit ((isProduct_iff _ _ _).1 hab)
      rwa [isUnit_toPoly, isUnit_toPoly] at this

/-- deg of a nonzero number is its highest bit; of zero it is −1 (R105). -/
theorem deg_of_ne_zero {v : Nat} (h : v ≠ 0) : deg v = (v.log2 : Int) := if_neg h

@[simp] theorem deg_zero : deg 0 = -1 := rfl

theorem neg_one_le_deg (v : Nat) : -1 ≤ deg v := by
  unfold deg; split <;> omega

/-- A number has degree below e exactly when it is below 2^e. -/
theorem deg_lt_iff {v e : Nat} : deg v < e ↔ v < 2 ^ e := by
  by_cases h : v = 0
  · subst h; simp; omega
  · rw [deg_of_ne_zero h, ← Nat.log2_lt h]; omega

end Sys2Proof.Laws
end

