-- ==== Sys2Proof/Laws/Division.lean ====
section
/-! SUPPORT. What long division and the Euclidean loop compute (R107, R109, R113): one lemma per operation. -/

namespace Sys2Proof.Laws

open Sys2Proof.Machine Polynomial

theorem xor_lt_of_log2_eq {a b d : Nat} (ha : a ≠ 0) (hb : b ≠ 0) (had : a.log2 = d) (hbd : b.log2 = d) :
    a ^^^ b < 2 ^ d := by
  apply Nat.lt_pow_two_of_testBit
  intro i hi
  rw [Nat.testBit_xor]
  rcases Nat.eq_or_lt_of_le hi with rfl | h
  · nth_rewrite 1 [← had]
    rw [← hbd, Nat.testBit_log2 hb, had, ← hbd, hbd, ← had, Nat.testBit_log2 ha]; rfl
  · rw [testBit_above_log2 (had ▸ h), testBit_above_log2 (hbd ▸ h)]; rfl

theorem log2_shiftLeft_of_ne_zero {n : Nat} (h : n ≠ 0) (s : Nat) : (n <<< s).log2 = n.log2 + s := by
  have h0 : toPoly n ≠ 0 := fun hn => h (toPoly_eq_zero.1 hn)
  rw [← natDegree_toPoly, toPoly_shiftLeft, natDegree_mul_X_pow _ h0, natDegree_toPoly]

/-- The division loop keeps q·n + r, ends below degree e, and sets only quotient bits below its fuel (R107, R108). -/
theorem divLoop_spec {n e : Nat} (hn : n ≠ 0) (he : n.log2 = e) :
    ∀ (k q r : Nat), r < 2 ^ (e + k) →
      toPoly (divLoop n e k q r).1 * toPoly n + toPoly (divLoop n e k q r).2 = toPoly q * toPoly n + toPoly r
      ∧ (divLoop n e k q r).2 < 2 ^ e
      ∧ ∀ K, k ≤ K → q < 2 ^ K → (divLoop n e k q r).1 < 2 ^ K := by
  intro k
  induction k with
  | zero => intro q r hr; exact ⟨rfl, hr, fun _ _ h => h⟩
  | succ k ih =>
    intro q r hr
    rw [divLoop]
    split
    · rename_i hdeg
      have hr0 : r ≠ 0 := by rintro rfl; rw [deg_zero] at hdeg; omega
      rw [deg_of_ne_zero hr0] at hdeg ⊢
      have hs : ((r.log2 : Int) - e).toNat = r.log2 - e := by omega
      have hlog : r.log2 < e + (k + 1) := (Nat.log2_lt hr0).2 hr
      simp only [hs]
      have hsh : (n <<< (r.log2 - e)).log2 = r.log2 := by rw [log2_shiftLeft_of_ne_zero hn]; omega
      have hsh0 : n <<< (r.log2 - e) ≠ 0 := by
        intro h; rw [Nat.shiftLeft_eq, Nat.mul_eq_zero] at h
        have := Nat.two_pow_pos (r.log2 - e); omega
      have hlt : r ^^^ n <<< (r.log2 - e) < 2 ^ (e + k) :=
        Nat.lt_of_lt_of_le (xor_lt_of_log2_eq hr0 hsh0 rfl hsh) (Nat.pow_le_pow_right (by omega) (by omega))
      obtain ⟨h1, h2, h3⟩ := ih (q ^^^ 1 <<< (r.log2 - e)) _ hlt
      refine ⟨?_, h2, fun K hK hq => h3 K (by omega) ?_⟩
      · rw [h1]
        simp only [toPoly_xor, toPoly_shiftLeft, toPoly_one]
        have h2 : toPoly n * X ^ (r.log2 - e) + toPoly n * X ^ (r.log2 - e) = 0 := CharTwo.add_self_eq_zero _
        linear_combination h2
      · apply Nat.xor_lt_two_pow hq
        rw [Nat.shiftLeft_eq, one_mul]
        exact Nat.pow_lt_pow_right (by omega) (by omega)
    · rename_i hdeg
      exact ⟨rfl, deg_lt_iff.1 (not_le.1 hdeg), fun _ _ h => h⟩

/-- The contract of `divrem` (R107): quotient and remainder, both below 2^m. -/
theorem divrem_spec {m d n : Nat} (hn : n ≠ 0) (hm : n.log2 = m) (hd : d < 2 ^ (2 * m)) :
    cl (divrem m d n).1 n ^^^ (divrem m d n).2 = d ∧ (divrem m d n).2 < 2 ^ m ∧ (divrem m d n).1 < 2 ^ m := by
  obtain ⟨h1, h2, h3⟩ := divLoop_spec hn hm m 0 d (by rw [← Nat.two_mul]; exact hd)
  refine ⟨toPoly_injective ?_, h2, h3 m le_rfl (Nat.two_pow_pos m)⟩
  rw [toPoly_xor, toPoly_cl]
  simpa [divrem] using h1

/-- The contract of `gdivrem` (R109): quotient and remainder by any nonzero divisor. -/
theorem gdivrem_spec {n d : Nat} (hd : d ≠ 0) :
    cl (gdivrem n d).1 d ^^^ (gdivrem n d).2 = n ∧ deg (gdivrem n d).2 < deg d := by
  have hlt : n < 2 ^ (d.log2 + (n.log2 + 1)) :=
    Nat.lt_of_lt_of_le Nat.lt_log2_self (Nat.pow_le_pow_right (by omega) (by omega))
  obtain ⟨h1, h2, -⟩ := divLoop_spec hd rfl (n.log2 + 1) 0 n hlt
  refine ⟨toPoly_injective ?_, by rw [deg_of_ne_zero hd]; exact deg_lt_iff.2 h2⟩
  rw [toPoly_xor, toPoly_cl]
  simpa [gdivrem] using h1

theorem degree_toPoly_lt {v e : Nat} : (toPoly v).degree < e ↔ v < 2 ^ e := by
  by_cases h : v = 0
  · subst h; simp
  · have h0 : toPoly v ≠ 0 := fun hv => h (toPoly_eq_zero.1 hv)
    rw [degree_eq_natDegree h0, natDegree_toPoly, Nat.cast_lt, Nat.log2_lt h]

/-- Quotient and remainder are determined by the contract of R107. -/
theorem division_unique {m n q r q' r' : Nat} (hn : n ≠ 0) (hm : n.log2 = m) (hr : r < 2 ^ m) (hr' : r' < 2 ^ m)
    (h : cl q n ^^^ r = cl q' n ^^^ r') : q = q' ∧ r = r' := by
  have hp := congrArg toPoly h
  simp only [toPoly_xor, toPoly_cl] at hp
  have h0 : toPoly n ≠ 0 := fun hv => hn (toPoly_eq_zero.1 hv)
  have hdeg : (toPoly n).degree = m := by rw [degree_eq_natDegree h0, natDegree_toPoly, hm]
  have hmul : (toPoly q - toPoly q') * toPoly n = toPoly r' - toPoly r := by linear_combination hp
  have hq : toPoly q - toPoly q' = 0 := by
    by_contra hne
    have h1 : (toPoly r' - toPoly r).degree < m :=
      lt_of_le_of_lt (degree_sub_le _ _) (max_lt (degree_toPoly_lt.2 hr') (degree_toPoly_lt.2 hr))
    rw [← hmul, degree_mul, hdeg, degree_eq_natDegree hne] at h1
    have : ((m : Nat) : WithBot Nat) ≤ ((toPoly q - toPoly q').natDegree : WithBot Nat) + m := by
      exact_mod_cast Nat.le_add_left _ _
    exact absurd h1 (not_lt.2 this)
  rw [hq, zero_mul] at hmul
  exact ⟨toPoly_injective (sub_eq_zero.1 hq), (toPoly_injective (sub_eq_zero.1 hmul.symm)).symm⟩

/-- The remainder is congruent to the dividend modulo the divisor (R111). -/
theorem dvd_reduce {m d n : Nat} (hn : n ≠ 0) (hm : n.log2 = m) (hd : d < 2 ^ (2 * m)) :
    toPoly n ∣ toPoly d - toPoly (reduce m d n) := by
  obtain ⟨h1, -, -⟩ := divrem_spec hn hm hd
  have h := congrArg toPoly h1
  rw [toPoly_xor, toPoly_cl] at h
  exact ⟨toPoly (divrem m d n).1, by rw [reduce]; linear_combination -h⟩

/-- A remainder is the reduction of every dividend it is congruent to (R111). -/
theorem reduce_unique {m d n v : Nat} (hn : n ≠ 0) (hm : n.log2 = m) (hd : d < 2 ^ (2 * m)) (hv : v < 2 ^ m)
    (h : toPoly n ∣ toPoly d - toPoly v) : reduce m d n = v := by
  obtain ⟨h1, h2, -⟩ := divrem_spec hn hm hd
  obtain ⟨c, hc⟩ := h
  obtain ⟨q, rfl⟩ := toPoly_surjective c
  refine (division_unique (q := (divrem m d n).1) (q' := q) hn hm h2 hv ?_).2
  rw [h1]
  apply toPoly_injective
  rw [toPoly_xor, toPoly_cl]
  linear_combination hc

/-- A number of degree below m is its own reduction (R111, R115). -/
theorem reduce_of_lt {m d n : Nat} (hn : n ≠ 0) (hm : n.log2 = m) (hd : d < 2 ^ m) : reduce m d n = d :=
  reduce_unique hn hm (Nat.lt_of_lt_of_le hd (Nat.pow_le_pow_right (by omega) (by omega))) hd (by simp)

/-- The Euclidean loop of R112: from the loop's invariants (R113, R114) it ends with a coefficient t of A, below
degree m, with t·A ≡ 1 modulo N. -/
theorem euclidLoop_spec {m : Nat} {N A : (ZMod 2)[X]} :
    ∀ (k r0 r1 t0 t1 : Nat), r1 < 2 ^ k → (toPoly r1).degree < (toPoly r0).degree →
      IsCoprime (toPoly r0) (toPoly r1) →
      N ∣ toPoly t0 * A - toPoly r0 → N ∣ toPoly t1 * A - toPoly r1 →
      (toPoly t0).degree < (toPoly t1).degree → (toPoly t1).natDegree + (toPoly r0).natDegree = m →
      N ∣ toPoly (euclidLoop k r0 r1 t0 t1) * A - 1 ∧ euclidLoop k r0 r1 t0 t1 < 2 ^ m := by
  have hexit : ∀ r0 t0 t1 : Nat, IsCoprime (toPoly r0) (toPoly 0) → N ∣ toPoly t0 * A - toPoly r0 →
      (toPoly t0).degree < (toPoly t1).degree → (toPoly t1).natDegree + (toPoly r0).natDegree = m →
      N ∣ toPoly t0 * A - 1 ∧ t0 < 2 ^ m := by
    intro r0 t0 t1 hco h0 hlt hdeg
    rw [toPoly_zero, isCoprime_zero_right] at hco
    obtain ⟨u, hu, hc⟩ := Polynomial.isUnit_iff.1 hco
    have hu1 : ∀ u : ZMod 2, IsUnit u → u = 1 := by decide
    rw [← hc, hu1 u hu, map_one] at h0
    refine ⟨h0, degree_toPoly_lt.1 (lt_of_lt_of_le hlt (le_trans degree_le_natDegree ?_))⟩
    exact_mod_cast (by omega)
  intro k
  induction k with
  | zero =>
    intro r0 r1 t0 t1 hr1 _ hco h0 _ hlt hdeg
    obtain rfl : r1 = 0 := by simpa using hr1
    exact hexit r0 t0 t1 hco h0 hlt hdeg
  | succ k ih =>
    intro r0 r1 t0 t1 hr1 hr hco h0 h1 hlt hdeg
    rw [euclidLoop]
    split
    · rename_i hz; subst hz; exact hexit r0 t0 t1 hco h0 hlt hdeg
    · rename_i hz
      obtain ⟨hq, hrem⟩ := gdivrem_spec (n := r0) hz
      generalize gdivrem r0 r1 = qr at hq hrem ⊢
      obtain ⟨q, r⟩ := qr
      simp only at hq hrem ⊢
      have hq := congrArg toPoly hq
      rw [toPoly_xor, toPoly_cl] at hq
      have hr1z : toPoly r1 ≠ 0 := fun h => hz (toPoly_eq_zero.1 h)
      rw [deg_of_ne_zero hz, deg_lt_iff, ← degree_toPoly_lt, ← natDegree_toPoly, ← degree_eq_natDegree hr1z] at hrem
      have hqz : toPoly q ≠ 0 := by
        intro hq0
        rw [hq0, zero_mul, zero_add] at hq
        rw [hq] at hrem
        exact absurd (lt_trans hrem hr) (lt_irrefl _)
      have hqdeg : (toPoly q).natDegree + (toPoly r1).natDegree = (toPoly r0).natDegree := by
        rw [← natDegree_mul hqz hr1z]
        apply (natDegree_eq_of_degree_eq _)
        rw [← hq, add_comm, degree_add_eq_right_of_degree_lt]
        rw [degree_mul]
        refine lt_of_lt_of_le hrem ?_
        rw [degree_eq_natDegree hqz, degree_eq_natDegree hr1z]
        exact_mod_cast Nat.le_add_left _ _
      have ht1z : toPoly t1 ≠ 0 := by rintro h; rw [h] at hlt; simp at hlt
      have hq1 : 0 < (toPoly q).natDegree := by
        have := natDegree_lt_natDegree hr1z hr
        omega
      have hnew : (toPoly (t0 ^^^ cl q t1)).natDegree = (toPoly q).natDegree + (toPoly t1).natDegree
          ∧ (toPoly t1).degree < (toPoly (t0 ^^^ cl q t1)).degree := by
        have hbig : (toPoly t1).degree < (toPoly q * toPoly t1).degree := by
          rw [degree_mul, degree_eq_natDegree hqz, degree_eq_natDegree ht1z]
          exact_mod_cast (by omega)
        have hd : (toPoly (t0 ^^^ cl q t1)).degree = (toPoly q * toPoly t1).degree := by
          rw [toPoly_xor, toPoly_cl, degree_add_eq_right_of_degree_lt (lt_trans hlt hbig)]
        exact ⟨by rw [natDegree_eq_of_degree_eq hd, natDegree_mul hqz ht1z], by rw [hd]; exact hbig⟩
      refine ih r1 r t1 (t0 ^^^ cl q t1) ?_ hrem ?_ h1 ?_ hnew.2 ?_
      · apply degree_toPoly_lt.1
        refine lt_of_lt_of_le hrem ?_
        rw [degree_eq_natDegree hr1z, natDegree_toPoly]
        have := (Nat.log2_lt hz).2 hr1
        exact_mod_cast (by omega)
      · have : IsCoprime (toPoly q * toPoly r1 + toPoly r) (toPoly r1) := by rw [hq]; exact hco
        exact (IsCoprime.add_mul_right_left_iff.1 (by rwa [add_comm] at this)).symm
      · have : toPoly (t0 ^^^ cl q t1) * A - toPoly r
            = (toPoly t0 * A - toPoly r0) + toPoly q * (toPoly t1 * A - toPoly r1) + (toPoly r0 - toPoly r
              + toPoly q * toPoly r1) := by
          rw [toPoly_xor, toPoly_cl]; ring
        have h2 : toPoly r0 - toPoly r + toPoly q * toPoly r1 = 0 := by
          rw [← hq, add_sub_cancel_right, CharTwo.add_self_eq_zero]
        rw [this, h2, add_zero]
        exact dvd_add h0 (dvd_mul_of_dvd_right h1 _)
      · rw [hnew.1]; omega

/-- The contract of `poly_inv` (R113) with R115: for an irreducible n of degree m and a nonzero a of degree below m,
the result has degree below m, it is the loop's coefficient unreduced, and its product with a reduces to 1. -/
theorem polyInv_spec {m a n : Nat} (hm : n.log2 = m) (hn : Gf2Irreducible n) (ha : a ≠ 0) (ham : a < 2 ^ m) :
    polyInv m a n = some (euclidLoop m n a 0 1) ∧ euclidLoop m n a 0 1 < 2 ^ m
      ∧ toPoly n ∣ toPoly (euclidLoop m n a 0 1) * toPoly a - 1 := by
  have hn0 : n ≠ 0 := by have := hn.1; omega
  have hnz : toPoly n ≠ 0 := fun h => hn0 (toPoly_eq_zero.1 h)
  have haz : toPoly a ≠ 0 := fun h => ha (toPoly_eq_zero.1 h)
  have hirr := (gf2Irreducible_iff n).1 hn
  have hdeg : (toPoly a).degree < (toPoly n).degree := by
    rw [degree_eq_natDegree hnz, natDegree_toPoly, hm]; exact degree_toPoly_lt.2 ham
  have hco : IsCoprime (toPoly n) (toPoly a) :=
    (hirr.coprime_iff_not_dvd).2 fun h => absurd (degree_le_of_dvd h haz) (not_le.2 hdeg)
  obtain ⟨h1, h2⟩ := euclidLoop_spec (m := m) (N := toPoly n) (A := toPoly a) m n a 0 1 ham hdeg hco
    (by simp) (by simp) (by simp) (by simp [natDegree_toPoly, hm])
  exact ⟨by rw [polyInv, if_neg ha, reduce_of_lt hn0 hm h2], h2, h1⟩

end Sys2Proof.Laws
end

