-- ==== Sys2Proof/Laws/Registers.lean ====
section
/-! SUPPORT. The operand forms: limbs of registers and polynomials, and their values as numbers (R12, R14, R23, R24). -/

namespace Sys2Proof.Laws

open Sys2Proof.Machine Polynomial

theorem limb_of_lt (r : Reg) {k : Nat} (h : k < 16) : r.limb k = r[k] := dif_pos h

@[simp] theorem limb_zero (k : Nat) : Reg.zero.limb k = 0 := by
  unfold Reg.limb Reg.zero; split <;> simp

/-- A register is its sixteen limbs. -/
theorem reg_ext {r r' : Reg} (h : ∀ k < 16, r.limb k = r'.limb k) : r = r' := by
  ext k hk
  have := h k hk
  rw [limb_of_lt r hk, limb_of_lt r' hk] at this
  rw [this]

theorem limb_setLimb (r : Reg) (k j : Nat) (v : Word) :
    (r.setLimb k v).limb j = if j = k ∧ k < 16 then v else r.limb j := by
  unfold Reg.limb Reg.setLimb
  by_cases hj : j < 16
  · by_cases hjk : j = k
    · subst hjk; simp [hj]
    · have : k ≠ j := fun h => hjk h.symm
      simp [hj, hjk, this]
  · simp only [hj, dif_neg, not_false_iff]
    rw [if_neg (by omega)]

@[simp] theorem poly_getElem (r : Reg) (L k : Nat) (h : k < L) : (r.poly L)[k] = r.limb k := by
  simp [Reg.poly]

/-- What stands in a register after `RL <- p` (R15, R24). -/
theorem limb_ofPoly {L : Nat} (hL : L ≤ 16) (p : Poly L) (k : Nat) :
    (Reg.ofPoly p).limb k = if h : k < L then p[k] else 0 := by
  unfold Reg.limb Reg.ofPoly
  by_cases h : k < L
  · simp [h, Nat.lt_of_lt_of_le h hL]
  · by_cases hk : k < 16 <;> simp [h, hk]

theorem ofPoly_zero {L : Nat} (hL : L ≤ 16) : Reg.ofPoly (Poly.zero L) = Reg.zero := by
  apply reg_ext
  intro k _
  rw [limb_ofPoly hL, limb_zero]
  split <;> simp [Poly.zero]

theorem poly_ofPoly {L : Nat} (hL : L ≤ 16) (p : Poly L) : (Reg.ofPoly p).poly L = p := by
  ext k hk
  rw [poly_getElem, limb_ofPoly hL, dif_pos hk]

theorem limbs_le (f : FieldSel) : f.limbs ≤ 16 := by cases f <;> decide

theorem limbs_pos (f : FieldSel) : 0 < f.limbs := by cases f <;> decide

/-- The value of a limb list, limb 0 first. -/
def listVal (l : List Word) : Nat := l.foldl (fun v w => v * 2 ^ 16 + w.toNat) 0

theorem val_eq_listVal {L : Nat} (p : Poly L) : p.val = listVal p.toList := rfl

theorem foldl_val (l : List Word) (v : Nat) :
    l.foldl (fun v w => v * 2 ^ 16 + w.toNat) v = v * 2 ^ (16 * l.length) + listVal l := by
  induction l generalizing v with
  | nil => simp [listVal]
  | cons w l ih =>
    have h0 : listVal (w :: l) = (0 * 2 ^ 16 + w.toNat) * 2 ^ (16 * l.length) + listVal l := ih _
    rw [List.foldl_cons, ih, h0, List.length_cons, Nat.mul_succ, Nat.pow_add]
    ring

theorem listVal_cons (w : Word) (l : List Word) : listVal (w :: l) = w.toNat * 2 ^ (16 * l.length) + listVal l := by
  rw [listVal, List.foldl_cons, foldl_val]; simp

theorem listVal_lt (l : List Word) : listVal l < 2 ^ (16 * l.length) := by
  induction l with
  | nil => simp [listVal]
  | cons w l ih =>
    rw [listVal_cons, List.length_cons, Nat.mul_succ, Nat.pow_add]
    have := w.isLt
    calc w.toNat * 2 ^ (16 * l.length) + listVal l < w.toNat * 2 ^ (16 * l.length) + 2 ^ (16 * l.length) := by omega
      _ = (w.toNat + 1) * 2 ^ (16 * l.length) := by ring
      _ ≤ 2 ^ 16 * 2 ^ (16 * l.length) := Nat.mul_le_mul_right _ (by omega)
      _ = _ := by ring

/-- val_L is below 2^(16·L). -/
theorem val_lt {L : Nat} (p : Poly L) : p.val < 2 ^ (16 * L) := by
  have := listVal_lt p.toList
  rwa [Vector.length_toList] at this

theorem listVal_digit : ∀ (l : List Word) (k : Nat) (h : k < l.length),
    listVal l / 2 ^ (16 * (l.length - 1 - k)) % 2 ^ 16 = l[k].toNat := by
  intro l
  induction l with
  | nil => intro k h; simp at h
  | cons w l ih =>
    intro k h
    rw [listVal_cons]
    cases k with
    | zero =>
      simp only [List.length_cons, Nat.add_sub_cancel, Nat.sub_zero, List.getElem_cons_zero]
      rw [Nat.add_comm, Nat.add_mul_div_right _ _ (Nat.two_pow_pos _), Nat.div_eq_of_lt (listVal_lt l), Nat.zero_add,
        Nat.mod_eq_of_lt w.isLt]
    | succ k =>
      have hk : k < l.length := by simpa using h
      have he : l.length + 1 - 1 - (k + 1) = l.length - 1 - k := by omega
      have hp : 2 ^ (16 * l.length) = 2 ^ 16 * 2 ^ (16 * k) * 2 ^ (16 * (l.length - 1 - k)) := by
        rw [← Nat.pow_add, ← Nat.pow_add]; congr 1; omega
      rw [List.length_cons, he, List.getElem_cons_succ, ← ih k hk, Nat.add_comm, hp, ← Nat.mul_assoc,
        Nat.add_mul_div_right _ _ (Nat.two_pow_pos _),
        show w.toNat * (2 ^ 16 * 2 ^ (16 * k)) = 2 ^ 16 * (w.toNat * 2 ^ (16 * k)) by ring, Nat.add_mul_mod_self_left]

/-- limbs_L inverts val_L (R12). -/
theorem ofNat_val {L : Nat} (p : Poly L) : Poly.ofNat L p.val = p := by
  apply Vector.ext
  intro k hk
  have h := listVal_digit p.toList k (by simpa using hk)
  simp only [Vector.length_toList, Vector.getElem_toList] at h
  apply BitVec.eq_of_toNat_eq
  simp only [Poly.ofNat, Vector.getElem_ofFn, BitVec.toNat_ofNat, Nat.shiftRight_eq_div_pow]
  exact h

/-- val_L is injective: every limb pattern is its own number (R12, R125). -/
theorem val_injective {L : Nat} {p q : Poly L} (h : p.val = q.val) : p = q := by
  rw [← ofNat_val p, h, ofNat_val]

/-- val_L of limbs_L(v) is v modulo 2^(16·L) (R12). -/
theorem val_ofNat_mod (L v : Nat) : (Poly.ofNat L v).val = v % 2 ^ (16 * L) := by
  have hlist : ∀ L, (Poly.ofNat L v).toList
      = (List.range L).map fun k => BitVec.ofNat 16 (v >>> (16 * (L - 1 - k))) := by
    intro L
    apply List.ext_getElem
    · simp
    · intro k h1 h2; simp [Poly.ofNat]
  rw [val_eq_listVal]
  induction L with
  | zero => simp [listVal, hlist, Nat.mod_one]
  | succ L ih =>
    have hc : (Poly.ofNat (L + 1) v).toList = BitVec.ofNat 16 (v >>> (16 * L)) :: (Poly.ofNat L v).toList := by
      rw [hlist, hlist, List.range_succ_eq_map, List.map_cons, List.map_map]
      congr 1
      apply List.map_congr_left
      intro k _
      simp only [Function.comp]
      congr 3
      omega
    rw [hc, listVal_cons, ih, Vector.length_toList, BitVec.toNat_ofNat, Nat.shiftRight_eq_div_pow, Nat.mul_succ,
      Nat.pow_add, Nat.mod_mul]
    ring

theorem val_ofNat {L v : Nat} (h : v < 2 ^ (16 * L)) : (Poly.ofNat L v).val = v := by
  rw [val_ofNat_mod, Nat.mod_eq_of_lt h]

@[simp] theorem val_zero (L : Nat) : (Poly.zero L).val = 0 := by
  have h : Poly.zero L = Poly.ofNat L 0 := by
    ext k hk; simp [Poly.zero, Poly.ofNat]
  rw [h, val_ofNat (Nat.two_pow_pos _)]

/-- val_L(ONE_L) = 1 (R91). -/
theorem val_one {L : Nat} (hL : 0 < L) : (Poly.one L).val = 1 := by
  have h : Poly.one L = Poly.ofNat L 1 := by
    apply Vector.ext
    intro k hk
    simp only [Poly.one, Poly.ofNat, Vector.getElem_ofFn]
    by_cases h : k = L - 1
    · subst h; simp
    · have hk' : 16 * (L - 1 - k) ≠ 0 := by omega
      rw [if_neg h, Nat.shiftRight_eq_div_pow, Nat.div_eq_of_lt (Nat.one_lt_two_pow hk')]
      rfl
  rw [h, val_ofNat]
  exact Nat.one_lt_two_pow (by omega)

/-- val_L is zero for ZERO_L alone. -/
theorem val_eq_zero {L : Nat} {p : Poly L} : p.val = 0 ↔ p = Poly.zero L :=
  ⟨fun h => val_injective (by rw [h, val_zero]), fun h => by rw [h, val_zero]⟩

/-- wval_L is below 2^(2·16·L). -/
theorem wideVal_lt {L : Nat} (hi lo : Poly L) : Poly.wideVal hi lo < 2 ^ (2 * (16 * L)) := by
  have h1 := val_lt hi
  have h2 := val_lt lo
  rw [Poly.wideVal, Nat.two_mul, Nat.pow_add]
  calc hi.val * 2 ^ (16 * L) + lo.val < hi.val * 2 ^ (16 * L) + 2 ^ (16 * L) := by omega
    _ = (hi.val + 1) * 2 ^ (16 * L) := by ring
    _ ≤ _ := Nat.mul_le_mul_right _ (by omega)

/-- A number is its high part shifted plus its low part. -/
theorem toPoly_split (v s : Nat) : toPoly v = toPoly (v >>> s) * X ^ s + toPoly (v % 2 ^ s) := by
  rw [← toPoly_shiftLeft, ← toPoly_xor]
  congr 1
  apply Nat.eq_of_testBit_eq
  intro i
  rw [Nat.testBit_xor, Nat.testBit_shiftLeft, Nat.testBit_mod_two_pow]
  by_cases h : s ≤ i
  · simp [h, Nat.not_lt.2 h]
  · simp [h, Nat.lt_of_not_le h]

theorem toPoly_mul_add {w v s : Nat} (h : v < 2 ^ s) : toPoly (w * 2 ^ s + v) = toPoly w * X ^ s + toPoly v := by
  rw [toPoly_split _ s, Nat.shiftRight_eq_div_pow, Nat.add_comm (w * 2 ^ s), Nat.add_mul_div_right _ _ (Nat.two_pow_pos _),
    Nat.div_eq_of_lt h, Nat.zero_add, Nat.add_mul_mod_self_right, Nat.mod_eq_of_lt h]

theorem toPoly_listVal (l : List Word) :
    toPoly (listVal l) = ∑ k : Fin l.length, toPoly l[k].toNat * X ^ (16 * (l.length - 1 - k.1)) := by
  induction l with
  | nil => simp [listVal]
  | cons w l ih =>
    rw [listVal_cons, toPoly_mul_add (listVal_lt l), ih]
    simp only [List.length_cons]
    rw [Fin.sum_univ_succ]
    congr 1
    apply Finset.sum_congr rfl
    intro k _
    congr 3
    simp only [Fin.val_succ]
    omega

/-- The polynomial of val_L, limb by limb (R12). -/
theorem toPoly_val {L : Nat} (p : Poly L) :
    toPoly p.val = ∑ k : Fin L, toPoly p[k].toNat * X ^ (16 * (L - 1 - k.1)) := by
  obtain ⟨⟨l⟩, rfl⟩ := p
  exact toPoly_listVal l

/-- The same, by word position (R12). -/
theorem toPoly_val_rev {L : Nat} (p : Poly L) :
    toPoly p.val = ∑ i : Fin L, toPoly p[L - 1 - i.1].toNat * X ^ (16 * i.1) := by
  rw [toPoly_val, ← Equiv.sum_comp Fin.revPerm]
  apply Finset.sum_congr rfl
  intro i _
  have h1 : (Fin.revPerm i).1 = L - 1 - i.1 := by simp [Fin.val_rev]; omega
  have h2 : L - 1 - (L - 1 - i.1) = i.1 := by omega
  simp only [Fin.getElem_fin, h1, h2]

theorem toPoly_wideVal {L : Nat} (hi lo : Poly L) :
    toPoly (Poly.wideVal hi lo) = toPoly hi.val * X ^ (16 * L) + toPoly lo.val :=
  toPoly_mul_add (val_lt lo)

end Sys2Proof.Laws
end

