-- ==== Sys2Proof/Laws/Irreducible.lean ====
section
/-! SUPPORT. The test a configuration must pass answers true on the irreducible moduli and on no others, so every
`Moduli` is valid (R29). The test is Rabin's; squaring is spreading the bits, and reduction is folding by x^m ≡ low. -/

namespace Sys2Proof.Laws

open Sys2Proof.Machine Polynomial

/-! ### Squaring -/

/-- A map on numbers that commutes with XOR. -/
def XorLinear (F : Nat → Nat) : Prop := ∀ x y, F (x ^^^ y) = F x ^^^ F y

theorem spreadStep_linear (s : Nat) : XorLinear (spreadStep · s) := by
  intro x y
  simp only [spreadStep]
  rw [Nat.shiftLeft_xor_distrib, ← Nat.and_xor_distrib_right]
  congr 1
  ac_rfl

theorem spreadSquare_linear : XorLinear spreadSquare := by
  intro x y
  simp only [spreadSquare]
  generalize [128, 64, 32, 16, 8, 4, 2, 1] = l
  induction l generalizing x y with
  | nil => rfl
  | cons s l ih => rw [List.foldl_cons, show spreadStep (x ^^^ y) s = _ from spreadStep_linear s x y, ih]; rfl

/-- The highest bit of x taken off: what is left is below it. -/
theorem xor_top_lt {x k : Nat} (hx : x < 2 ^ (k + 1)) (hb : x.testBit k = true) : x ^^^ 1 <<< k < 2 ^ k := by
  have hx0 : x ≠ 0 := by rintro rfl; simp at hb
  have hlog : x.log2 = k := by
    have h1 := (Nat.log2_lt hx0).2 hx
    by_contra hne
    rw [testBit_above_log2 (by omega)] at hb; cases hb
  exact xor_lt_of_log2_eq hx0 (by simp [Nat.shiftLeft_eq]) hlog (by
    rw [log2_shiftLeft_of_ne_zero (by omega), show Nat.log2 1 = 0 by decide, Nat.zero_add])

/-- A linear map that doubles the exponent of every power of x below x^m squares every polynomial below x^m. -/
theorem square_of_linear {m : Nat} {F : Nat → Nat} (hF : XorLinear F) (hbasis : ∀ i < m, F (1 <<< i) = 1 <<< (2 * i)) :
    ∀ x < 2 ^ m, toPoly (F x) = toPoly x ^ 2 := by
  have hF0 : F 0 = 0 := by have := hF 0 0; simpa using this
  have hind : ∀ k ≤ m, ∀ x < 2 ^ k, toPoly (F x) = toPoly x ^ 2 := by
    intro k
    induction k with
    | zero => intro _ x hx; obtain rfl : x = 0 := by simpa using hx
              simp [hF0]
    | succ k ih =>
      intro hk x hx
      by_cases hb : x.testBit k
      · have h1 := ih (by omega) _ (xor_top_lt hx hb)
        have hx' : x = (x ^^^ 1 <<< k) ^^^ 1 <<< k := by simp
        generalize x ^^^ 1 <<< k = y at *
        subst hx'
        rw [hF, toPoly_xor, toPoly_xor, CharTwo.add_sq, h1, hbasis k (by omega)]
        simp [← pow_mul, mul_comm]
      · refine ih (by omega) x (Nat.lt_pow_two_of_testBit _ fun i hi => ?_)
        rcases Nat.eq_or_lt_of_le hi with rfl | h
        · simpa using hb
        · exact Nat.testBit_lt_two_pow (Nat.lt_of_lt_of_le hx (Nat.pow_le_pow_right (by omega) (by omega)))
  exact hind m le_rfl

theorem spreadSquare_basis : ∀ i < 256, spreadSquare (1 <<< i) = 1 <<< (2 * i) := by decide +kernel

/-- `spreadSquare` squares every polynomial below x^256. -/
theorem toPoly_spreadSquare {x : Nat} (hx : x < 2 ^ 256) : toPoly (spreadSquare x) = toPoly x ^ 2 :=
  square_of_linear spreadSquare_linear spreadSquare_basis x hx

/-! ### Reduction by folding -/

/-- A product's length is at most the sum of the lengths, less one. -/
theorem cl_lt {a b i j : Nat} (ha : a < 2 ^ (i + 1)) (hb : b < 2 ^ j) : cl a b < 2 ^ (i + j) := by
  rw [← degree_toPoly_lt, toPoly_cl]
  by_cases h0 : toPoly a * toPoly b = 0
  · rw [h0, degree_zero]; exact WithBot.bot_lt_coe _
  · obtain ⟨ha0, hb0⟩ := mul_ne_zero_iff.1 h0
    have ha' := degree_toPoly_lt.2 ha
    have hb' := degree_toPoly_lt.2 hb
    rw [degree_eq_natDegree ha0, Nat.cast_lt] at ha'
    rw [degree_eq_natDegree hb0, Nat.cast_lt] at hb'
    rw [degree_eq_natDegree h0, natDegree_mul ha0 hb0, Nat.cast_lt]
    omega

/-- The polynomial of x^m + low. -/
theorem toPoly_modulus {m low : Nat} (hlow : low < 2 ^ m) : toPoly (2 ^ m + low) = X ^ m + toPoly low := by
  have h := toPoly_mul_add (w := 1) hlow
  simpa using h

/-- Folding keeps the residue modulo x^m + low and lowers the degree of what is not below x^m. -/
theorem foldOnce_spec {m low v k : Nat} (hlow : low < 2 ^ m) (hv : v < 2 ^ (m + (k + 1))) :
    toPoly (2 ^ m + low) ∣ toPoly v - toPoly (foldOnce m low v) ∧ foldOnce m low v < 2 ^ (m + k) := by
  constructor
  · rw [toPoly_modulus hlow, foldOnce, toPoly_xor, toPoly_cl, toPoly_split v m]
    have h2 : toPoly low + toPoly low = 0 := CharTwo.add_self_eq_zero _
    exact ⟨toPoly (v >>> m), by linear_combination -toPoly (v >>> m) * h2⟩
  · have hshift : v >>> m < 2 ^ (k + 1) := by
      rw [Nat.shiftRight_eq_div_pow]
      exact Nat.div_lt_of_lt_mul (by rwa [← Nat.pow_add])
    refine Nat.xor_lt_two_pow (Nat.lt_of_lt_of_le (Nat.mod_lt _ (Nat.two_pow_pos m))
      (Nat.pow_le_pow_right (by omega) (by omega))) ?_
    rw [Nat.add_comm]
    exact cl_lt hshift hlow

/-- What `foldDown` does: it answers the residue below 2^m. -/
theorem foldDown_spec {m low : Nat} (hlow : low < 2 ^ m) :
    ∀ (k v : Nat), v < 2 ^ (m + k) →
      toPoly (2 ^ m + low) ∣ toPoly v - toPoly (foldDown m low k v) ∧ foldDown m low k v < 2 ^ m := by
  intro k
  induction k with
  | zero => intro v hv; exact ⟨by simp [foldDown], hv⟩
  | succ k ih =>
    intro v hv
    rw [foldDown]
    split
    · exact ⟨by simp, ‹_›⟩
    · obtain ⟨h1, h2⟩ := foldOnce_spec hlow hv
      obtain ⟨h3, h4⟩ := ih _ h2
      exact ⟨by simpa using dvd_add h1 h3, h4⟩

/-- What `squareMod` does: it answers the residue of the square. -/
theorem squareMod_spec {m low x : Nat} (hm : m ≤ 256) (hlow : low < 2 ^ m) (hx : x < 2 ^ m) :
    toPoly (2 ^ m + low) ∣ toPoly x ^ 2 - toPoly (squareMod m low x) ∧ squareMod m low x < 2 ^ m := by
  have hsq := toPoly_spreadSquare (Nat.lt_of_lt_of_le hx (Nat.pow_le_pow_right (by omega) hm))
  have hlt : spreadSquare x < 2 ^ (m + m) := by
    have h : spreadSquare x = cl x x := toPoly_injective (by rw [hsq, toPoly_cl, pow_two])
    rw [h]
    exact cl_lt (Nat.lt_of_lt_of_le hx (Nat.pow_le_pow_right (by omega) (by omega))) hx
  rw [← hsq]
  exact foldDown_spec hlow m _ hlt

/-- Iterated squaring from x^(2^j) gives x^(2^(j+k)) modulo x^m + low. -/
theorem squareIter_spec {m low : Nat} (hm : m ≤ 256) (hlow : low < 2 ^ m) :
    ∀ (k j h : Nat), h < 2 ^ m → toPoly (2 ^ m + low) ∣ X ^ 2 ^ j - toPoly h →
      toPoly (2 ^ m + low) ∣ X ^ 2 ^ (j + k) - toPoly (squareIter m low k h) ∧ squareIter m low k h < 2 ^ m := by
  intro k
  induction k with
  | zero => intro j h hh hd; exact ⟨hd, hh⟩
  | succ k ih =>
    intro j h hh hd
    obtain ⟨h1, h2⟩ := squareMod_spec hm hlow hh
    have hstep : toPoly (2 ^ m + low) ∣ X ^ 2 ^ (j + 1) - toPoly (squareMod m low h) := by
      have : (X : (ZMod 2)[X]) ^ 2 ^ (j + 1) - toPoly (squareMod m low h)
          = (X ^ 2 ^ j - toPoly h) * (X ^ 2 ^ j + toPoly h) + (toPoly h ^ 2 - toPoly (squareMod m low h)) := by
        rw [pow_succ, pow_mul]; ring
      rw [this]
      exact dvd_add (dvd_mul_of_dvd_left hd _) h1
    have := ih (j + 1) _ h2 hstep
    rwa [Nat.add_right_comm, Nat.add_assoc] at this

/-! ### The greatest common divisor -/

/-- What `polyGcd` is for: it answers 1 exactly on coprime operands. -/
theorem polyGcd_eq_one : ∀ (k a b : Nat), b < 2 ^ k → (polyGcd k a b = 1 ↔ IsCoprime (toPoly a) (toPoly b)) := by
  have hzero : ∀ a, a = 1 ↔ IsCoprime (toPoly a) (toPoly 0) := fun a => by
    rw [toPoly_zero, isCoprime_zero_right, isUnit_toPoly]
  intro k
  induction k with
  | zero => intro a b hb; obtain rfl : b = 0 := by simpa using hb
            exact hzero a
  | succ k ih =>
    intro a b hb
    rw [polyGcd]
    split
    · subst b; exact hzero a
    · obtain ⟨h1, h2⟩ := gdivrem_spec (n := a) (d := b) ‹_›
      have hr : (gdivrem a b).2 < 2 ^ k := by
        rw [← deg_lt_iff]
        have := deg_lt_iff.2 hb
        push_cast at this
        omega
      rw [ih b _ hr]
      have ha : toPoly a = toPoly (gdivrem a b).2 + toPoly (gdivrem a b).1 * toPoly b := by
        have h := congrArg toPoly h1
        rw [toPoly_xor, toPoly_cl] at h
        rw [← h, add_comm]
      rw [ha, IsCoprime.add_mul_right_left_iff, isCoprime_comm]

/-! ### Rabin's test -/

/-- Rabin's test: P of degree m divides x^(2^m) − x and is coprime to x^(2^(m/p)) − x for every prime p dividing m. -/
theorem irreducible_of_rabin {P : (ZMod 2)[X]} {m : Nat} (hm : P.natDegree = m) (h0 : 0 < m)
    (hall : P ∣ X ^ 2 ^ m - X) (hco : ∀ p, p.Prime → p ∣ m → IsCoprime P (X ^ 2 ^ (m / p) - X)) : Irreducible P := by
  have hP0 : P ≠ 0 := by rintro rfl; simp at hm; omega
  have hPu : ¬IsUnit P := fun h => by have := natDegree_eq_zero_of_isUnit h; omega
  obtain ⟨g, hg, c, hc⟩ := WfDvdMonoid.exists_irreducible_factor hPu hP0
  have hdvd : ∀ k, g.natDegree ∣ k ↔ g ∣ X ^ 2 ^ k - X := by
    intro k
    have := hg.natDegree_dvd_iff_dvd_X_pow_card_pow_sub_X (n := k)
    rwa [Nat.card_zmod] at this
  obtain ⟨e, he⟩ := (hdvd m).2 (dvd_trans ⟨c, hc⟩ hall)
  by_cases h1 : e = 1
  · have hc0 : c ≠ 0 := by rintro rfl; simp at hc; exact hP0 hc
    have hcd : c.natDegree = 0 := by
      have := congrArg natDegree hc
      rw [natDegree_mul hg.ne_zero hc0, hm, he, h1] at this; omega
    have hcu : IsUnit c := by
      rw [natDegree_eq_zero] at hcd
      obtain ⟨u, rfl⟩ := hcd
      exact (isUnit_iff_ne_zero.2 (by rintro rfl; simp at hc0)).map C
    rw [hc]
    exact (irreducible_mul_isUnit hcu).2 hg
  · obtain ⟨p, hp, q, hq⟩ := Nat.exists_prime_and_dvd h1
    have hmp : m / p = g.natDegree * q := by
      rw [he, hq, Nat.mul_left_comm, Nat.mul_div_cancel_left _ hp.pos]
    have hgq : g ∣ X ^ 2 ^ (m / p) - X := (hdvd _).1 ⟨q, hmp⟩
    have hgu := (hco p hp ⟨g.natDegree * q, by rw [he, hq, Nat.mul_left_comm]⟩).isUnit_of_dvd' ⟨c, hc⟩ hgq
    exact absurd hgu hg.not_isUnit

/-- The converse: an irreducible polynomial of degree m passes Rabin's test. -/
theorem rabin_of_irreducible {P : (ZMod 2)[X]} {m : Nat} (hP : Irreducible P) (hm : P.natDegree = m) (h0 : 0 < m) :
    P ∣ X ^ 2 ^ m - X ∧ ∀ p, p.Prime → p ∣ m → IsCoprime P (X ^ 2 ^ (m / p) - X) := by
  have hdvd : ∀ k, m ∣ k ↔ P ∣ X ^ 2 ^ k - X := by
    intro k
    have := hP.natDegree_dvd_iff_dvd_X_pow_card_pow_sub_X (n := k)
    rwa [Nat.card_zmod, hm] at this
  refine ⟨(hdvd m).1 dvd_rfl, fun p hp hpm => (hP.coprime_iff_not_dvd).2 fun h => ?_⟩
  have h1 := Nat.le_of_dvd (Nat.div_pos (Nat.le_of_dvd h0 hpm) hp.pos) ((hdvd _).2 h)
  have h2 := Nat.div_lt_self h0 hp.one_lt
  omega

/-- Two residues below 2^m that are congruent are equal. -/
theorem eq_of_dvd_sub {m n a b : Nat} (hn : n ≠ 0) (hm : n.log2 = m) (ha : a < 2 ^ m) (hb : b < 2 ^ m)
    (h : toPoly n ∣ toPoly a - toPoly b) : a = b :=
  (reduce_of_lt hn hm ha).symm.trans
    (reduce_unique hn hm (Nat.lt_of_lt_of_le ha (Nat.pow_le_pow_right (by omega) (by omega))) hb h)

theorem log2_two_pow_add {m low : Nat} (hlow : low < 2 ^ m) : (2 ^ m + low).log2 = m := by
  rw [Nat.log2_eq_iff (by have := Nat.two_pow_pos m; omega), Nat.pow_succ]
  omega

/-- What the test decides: whether x^m + low is irreducible (R29), where `primes` lists the primes that divide m. -/
theorem irreducibleTest_iff {m low : Nat} {primes : List Nat} (hm1 : 1 < m) (hm : m ≤ 256) (hlow : low < 2 ^ m)
    (hprimes : ∀ p, p ∈ primes ↔ p.Prime ∧ p ∣ m) :
    irreducibleTest m primes low = true ↔ Gf2Irreducible (2 ^ m + low) := by
  have hn0 : 2 ^ m + low ≠ 0 := by have := Nat.two_pow_pos m; omega
  have hlog := log2_two_pow_add hlow
  have hdeg : (toPoly (2 ^ m + low)).natDegree = m := by rw [natDegree_toPoly, hlog]
  have h2lt : 2 < 2 ^ m := by
    calc 2 = 2 ^ 1 := rfl
      _ < 2 ^ m := Nat.pow_lt_pow_right (by omega) hm1
  have hiter : ∀ k, toPoly (2 ^ m + low) ∣ X ^ 2 ^ k - toPoly (squareIter m low k 2) ∧ squareIter m low k 2 < 2 ^ m := by
    intro k
    have := squareIter_spec hm hlow k 0 2 h2lt (by simp [toPoly_two])
    rwa [Nat.zero_add] at this
  have hco : ∀ k, polyGcd m (2 ^ m + low) (squareIter m low k 2 ^^^ 2) = 1
      ↔ IsCoprime (toPoly (2 ^ m + low)) (X ^ 2 ^ k - X) := by
    intro k
    rw [polyGcd_eq_one m _ _ (Nat.xor_lt_two_pow (hiter k).2 h2lt)]
    obtain ⟨c, hc⟩ := (hiter k).1
    have h2 : (X : (ZMod 2)[X]) + X = 0 := CharTwo.add_self_eq_zero _
    have : (X : (ZMod 2)[X]) ^ 2 ^ k - X
        = toPoly (squareIter m low k 2 ^^^ 2) + toPoly (2 ^ m + low) * c := by
      rw [toPoly_xor, toPoly_two]; linear_combination hc - h2
    rw [this, IsCoprime.add_mul_left_right_iff]
  have hfix : squareIter m low m 2 = 2 ↔ toPoly (2 ^ m + low) ∣ X ^ 2 ^ m - X := by
    have h := (hiter m).1
    constructor
    · intro hf; rwa [hf, toPoly_two] at h
    · intro hd
      refine eq_of_dvd_sub hn0 hlog (hiter m).2 h2lt ?_
      rw [toPoly_two]
      have := dvd_sub hd h
      rwa [sub_sub_sub_cancel_left] at this
  rw [gf2Irreducible_iff, irreducibleTest, Bool.and_eq_true, List.all_eq_true, beq_iff_eq, hfix]
  simp only [beq_iff_eq, hco, hprimes]
  constructor
  · rintro ⟨h1, h2⟩
    exact irreducible_of_rabin hdeg (by omega) h1 fun p hp hpm => h2 p ⟨hp, hpm⟩
  · intro hirr
    obtain ⟨h1, h2⟩ := rabin_of_irreducible hirr hdeg (by omega)
    exact ⟨h1, fun p hp => h2 p hp.1 hp.2⟩

theorem primes_two_pow (k p : Nat) : p ∈ [2] ↔ p.Prime ∧ p ∣ 2 ^ (k + 1) := by
  constructor
  · intro h
    obtain rfl := List.mem_singleton.1 h
    exact ⟨Nat.prime_two, dvd_pow_self 2 (by omega)⟩
  · rintro ⟨hp, h⟩
    exact List.mem_singleton.2 ((Nat.prime_dvd_prime_iff_eq hp Nat.prime_two).1 (hp.dvd_of_dvd_pow h))

theorem primes_192 (p : Nat) : p ∈ [2, 3] ↔ p.Prime ∧ p ∣ 192 := by
  constructor
  · intro h
    rcases List.mem_cons.1 h with rfl | h
    · exact ⟨Nat.prime_two, by decide⟩
    · obtain rfl := List.mem_singleton.1 h
      exact ⟨Nat.prime_three, by decide⟩
  · rintro ⟨hp, h⟩
    rcases (Nat.Prime.dvd_mul hp).1 (show p ∣ 3 * 2 ^ 6 from h) with h3 | h2
    · simp [(Nat.prime_dvd_prime_iff_eq hp Nat.prime_three).1 h3]
    · simp [(Nat.prime_dvd_prime_iff_eq hp Nat.prime_two).1 (hp.dvd_of_dvd_pow h2)]

theorem irreducibleTest128_iff {low : Nat} (h : low < 2 ^ 128) :
    irreducibleTest 128 [2] low = true ↔ Gf2Irreducible (2 ^ 128 + low) :=
  irreducibleTest_iff (by decide) (by decide) h (primes_two_pow 6)

theorem irreducibleTest192_iff {low : Nat} (h : low < 2 ^ 192) :
    irreducibleTest 192 [2, 3] low = true ↔ Gf2Irreducible (2 ^ 192 + low) :=
  irreducibleTest_iff (by decide) (by decide) h primes_192

theorem irreducibleTest256_iff {low : Nat} (h : low < 2 ^ 256) :
    irreducibleTest 256 [2] low = true ↔ Gf2Irreducible (2 ^ 256 + low) :=
  irreducibleTest_iff (by decide) (by decide) h (primes_two_pow 7)

/-! ### Every configuration is valid -/

/-- Every modulus has degree exactly m, whatever its low half (R29, R30). -/
theorem log2_modulus (c : Moduli) (f : FieldSel) : (c.modulus f).log2 = f.degree := by
  cases f
  · exact log2_two_pow_add c.low128.isLt
  · exact log2_two_pow_add c.low192.isLt
  · exact log2_two_pow_add c.low256.isLt

theorem modulus_ne_zero (c : Moduli) (f : FieldSel) : c.modulus f ≠ 0 := by
  intro h
  have := log2_modulus c f
  rw [h, Nat.log2_zero] at this
  cases f <;> simp [FieldSel.degree, FieldSel.limbs] at this

/-- The premise of R29 holds of every configuration, whatever state it stands in. -/
theorem modulus_valid (c : Moduli) (f : FieldSel) : ModulusValid c f := by
  refine ⟨log2_modulus c f, ?_⟩
  cases f
  · exact (irreducibleTest128_iff c.low128.isLt).1 c.irreducible128
  · exact (irreducibleTest192_iff c.low192.isLt).1 c.irreducible192
  · exact (irreducibleTest256_iff c.low256.isLt).1 c.irreducible256

end Sys2Proof.Laws
end

