-- ==== Sys2Proof/Laws/PerInstr.lean ====
section
/-! SUPPORT. Statements made per instruction. `Encoding`: the encoder's word is read back as the instruction, through the
table numbering, and its fields are well formed (R60, R63, R65). -/

namespace Sys2Proof.Laws

def Encoding.Statement (i : Instr) : Prop :=
  decode (encode i) = .ok i ∧ decodeTableWord 16 (encode i).toNat = some i
    ∧ (CommandFields.ofWord (encode i)).wellFormed = true

theorem Encoding.zero128 : Encoding.Statement .zero128 := ⟨rfl, rfl, rfl⟩
theorem Encoding.zero192 : Encoding.Statement .zero192 := ⟨rfl, rfl, rfl⟩
theorem Encoding.zero256 : Encoding.Statement .zero256 := ⟨rfl, rfl, rfl⟩
theorem Encoding.one128 : Encoding.Statement .one128 := ⟨rfl, rfl, rfl⟩
theorem Encoding.one192 : Encoding.Statement .one192 := ⟨rfl, rfl, rfl⟩
theorem Encoding.one256 : Encoding.Statement .one256 := ⟨rfl, rfl, rfl⟩
theorem Encoding.random128 : Encoding.Statement .random128 := ⟨rfl, rfl, rfl⟩
theorem Encoding.random192 : Encoding.Statement .random192 := ⟨rfl, rfl, rfl⟩
theorem Encoding.random256 : Encoding.Statement .random256 := ⟨rfl, rfl, rfl⟩
theorem Encoding.add128 : Encoding.Statement .add128 := ⟨rfl, rfl, rfl⟩
theorem Encoding.add192 : Encoding.Statement .add192 := ⟨rfl, rfl, rfl⟩
theorem Encoding.add256 : Encoding.Statement .add256 := ⟨rfl, rfl, rfl⟩
theorem Encoding.sub128 : Encoding.Statement .sub128 := ⟨rfl, rfl, rfl⟩
theorem Encoding.sub192 : Encoding.Statement .sub192 := ⟨rfl, rfl, rfl⟩
theorem Encoding.sub256 : Encoding.Statement .sub256 := ⟨rfl, rfl, rfl⟩
theorem Encoding.mul128 : Encoding.Statement .mul128 := ⟨rfl, rfl, rfl⟩
theorem Encoding.mul192 : Encoding.Statement .mul192 := ⟨rfl, rfl, rfl⟩
theorem Encoding.mul256 : Encoding.Statement .mul256 := ⟨rfl, rfl, rfl⟩
theorem Encoding.inv128 : Encoding.Statement .inv128 := ⟨rfl, rfl, rfl⟩
theorem Encoding.inv192 : Encoding.Statement .inv192 := ⟨rfl, rfl, rfl⟩
theorem Encoding.inv256 : Encoding.Statement .inv256 := ⟨rfl, rfl, rfl⟩
theorem Encoding.iszero128 : Encoding.Statement .iszero128 := ⟨rfl, rfl, rfl⟩
theorem Encoding.iszero192 : Encoding.Statement .iszero192 := ⟨rfl, rfl, rfl⟩
theorem Encoding.iszero256 : Encoding.Statement .iszero256 := ⟨rfl, rfl, rfl⟩
theorem Encoding.isone128 : Encoding.Statement .isone128 := ⟨rfl, rfl, rfl⟩
theorem Encoding.isone192 : Encoding.Statement .isone192 := ⟨rfl, rfl, rfl⟩
theorem Encoding.isone256 : Encoding.Statement .isone256 := ⟨rfl, rfl, rfl⟩
theorem Encoding.eq128 : Encoding.Statement .eq128 := ⟨rfl, rfl, rfl⟩
theorem Encoding.eq192 : Encoding.Statement .eq192 := ⟨rfl, rfl, rfl⟩
theorem Encoding.eq256 : Encoding.Statement .eq256 := ⟨rfl, rfl, rfl⟩
theorem Encoding.wmul128 : Encoding.Statement .wmul128 := ⟨rfl, rfl, rfl⟩
theorem Encoding.wmul192 : Encoding.Statement .wmul192 := ⟨rfl, rfl, rfl⟩
theorem Encoding.wmul256 : Encoding.Statement .wmul256 := ⟨rfl, rfl, rfl⟩
theorem Encoding.divrem128 : Encoding.Statement .divrem128 := ⟨rfl, rfl, rfl⟩
theorem Encoding.divrem192 : Encoding.Statement .divrem192 := ⟨rfl, rfl, rfl⟩
theorem Encoding.divrem256 : Encoding.Statement .divrem256 := ⟨rfl, rfl, rfl⟩
theorem Encoding.clmul : Encoding.Statement .clmul := ⟨rfl, rfl, rfl⟩

end Sys2Proof.Laws
end

