-- ==== Sys2Proof/Laws/Product.lean ====
section
/-! SUPPORT. The two multipliers compute the exact product: `wshl` (R80), `clmul` (R82), `wmul` (R94). -/

namespace Sys2Proof.Laws

open Sys2Proof.Machine Polynomial

/-- The 32-bit value (high:low) of a word pair. -/
def pairVal (hl : Word × Word) : Nat := hl.1.toNat * 2 ^ 16 + hl.2.toNat

theorem toPoly_pairVal (hl : Word × Word) :
    toPoly (pairVal hl) = toPoly hl.1.toNat * X ^ 16 + toPoly hl.2.toNat :=
  toPoly_mul_add hl.2.isLt

/-- The contract of `wshl` (R80): no bit of a·2^i is lost for i ≤ 16. -/
theorem wshl_spec (a : Word) {i : Nat} (hi : i ≤ 16) : pairVal (wshl a i) = a.toNat * 2 ^ i := by
  have hlt : a.toNat * 2 ^ i < 2 ^ 32 := by
    calc a.toNat * 2 ^ i < 2 ^ 16 * 2 ^ i := Nat.mul_lt_mul_of_pos_right a.isLt (Nat.two_pow_pos i)
      _ ≤ 2 ^ 16 * 2 ^ 16 := Nat.mul_le_mul_left _ (Nat.pow_le_pow_right (by omega) hi)
      _ = 2 ^ 32 := rfl
  have hv : (a.setWidth 32 <<< i).toNat = a.toNat * 2 ^ i := by
    rw [BitVec.toNat_shiftLeft, BitVec.toNat_setWidth, Nat.shiftLeft_eq,
      Nat.mod_eq_of_lt (Nat.lt_of_lt_of_le a.isLt (by decide)), Nat.mod_eq_of_lt hlt]
  simp only [pairVal, wshl, BitVec.extractLsb'_toNat, hv, Nat.shiftRight_eq_div_pow]
  omega

theorem toPoly_clmulFold (a b : Word) (l : List Nat) (hl : ∀ i ∈ l, i ≤ 16) (acc : Word × Word) :
    toPoly (pairVal (l.foldl (clmulStep a b) acc))
      = toPoly (pairVal acc)
        + toPoly a.toNat * (l.map fun i => if b.getLsbD i then (X : (ZMod 2)[X]) ^ i else 0).sum := by
  induction l generalizing acc with
  | nil => simp
  | cons i l ih =>
    rw [List.foldl_cons, ih (fun j hj => hl j (by simp [hj])), List.map_cons, List.sum_cons, clmulStep]
    have hw : toPoly (pairVal (wshl a i)) = toPoly a.toNat * X ^ i := by
      rw [wshl_spec a (hl i (by simp)), ← Nat.shiftLeft_eq, toPoly_shiftLeft]
    rw [toPoly_pairVal] at hw
    split
    · rw [toPoly_pairVal, toPoly_pairVal acc]
      simp only [BitVec.toNat_xor, toPoly_xor]
      linear_combination hw
    · ring

/-- The contract of `clmul` (R82): (high:low) is the carryless product of the two words. -/
theorem clmul_spec (a b : Word) : pairVal (clmul a b) = cl a.toNat b.toNat := by
  apply toPoly_injective
  rw [toPoly_cl, clmul, toPoly_clmulFold a b _ (fun i hi => by have := List.mem_range.1 hi; omega)]
  have hb : toPoly b.toNat = ((List.range 16).map fun i => if b.getLsbD i then (X : (ZMod 2)[X]) ^ i else 0).sum := by
    ext k
    have hs : ((List.range 16).map fun i => if b.getLsbD i then (X : (ZMod 2)[X]) ^ i else 0).sum
        = ∑ i ∈ Finset.range 16, if b.getLsbD i then (X : (ZMod 2)[X]) ^ i else 0 := rfl
    have hterm : ∀ i, (if b.getLsbD i then (X : (ZMod 2)[X]) ^ i else 0).coeff k
        = if k = i then bitVal (b.getLsbD k) else 0 := by
      intro i
      by_cases hki : k = i
      · subst hki; cases h : b.getLsbD k <;> simp [bitVal]
      · cases h : b.getLsbD i <;> simp [hki, coeff_X_pow]
    rw [coeff_toPoly, hs, finsetSum_coeff]
    simp only [hterm, Finset.sum_ite_eq, Finset.mem_range]
    split
    · rfl
    · rw [Nat.testBit_lt_two_pow (Nat.lt_of_lt_of_le b.isLt (Nat.pow_le_pow_right (by omega) (by omega)))]; rfl
  rw [← hb]
  simp [pairVal]

/-- The polynomial of a word array by word position. -/
noncomputable def wordsPoly {n : Nat} (P : Vector Word n) : (ZMod 2)[X] :=
  ∑ p : Fin n, toPoly P[p].toNat * X ^ (16 * p.1)

theorem wordsPoly_xorInto {n : Nat} (P : Vector Word n) {p : Nat} (hp : p < n) (w : Word) :
    wordsPoly (xorInto P p w) = wordsPoly P + toPoly w.toNat * X ^ (16 * p) := by
  have hterm : ∀ q : Fin n, toPoly (xorInto P p w)[q].toNat * (X : (ZMod 2)[X]) ^ (16 * q.1)
      = toPoly P[q].toNat * X ^ (16 * q.1) + if q = ⟨p, hp⟩ then toPoly w.toNat * X ^ (16 * p) else 0 := by
    intro q
    simp only [xorInto, dif_pos hp, Fin.getElem_fin, Vector.getElem_set]
    by_cases h : p = q.1
    · subst h; simp [add_mul]
    · have : q ≠ ⟨p, hp⟩ := fun hq => h (by rw [hq])
      simp [h, this]
  unfold wordsPoly
  rw [Finset.sum_congr rfl fun q _ => hterm q, Finset.sum_add_distrib]
  simp

theorem wmulStep_algebra {R : Type} [CommRing R] {A B H K x u v : R} (h : H * x + K = A * B) :
    K * (u * v) + H * (x * u * v) = A * u * (B * v) := by
  linear_combination u * v * h

theorem wordsPoly_wmulStep {L : Nat} (a b : Poly L) (P : Vector Word (2 * L)) (i j : Fin L) :
    wordsPoly (wmulStep a b P i j)
      = wordsPoly P + toPoly a[L - 1 - i.1].toNat * X ^ (16 * i.1) * (toPoly b[L - 1 - j.1].toNat * X ^ (16 * j.1)) := by
  have hc := congrArg toPoly (clmul_spec a[L - 1 - i.1] b[L - 1 - j.1])
  rw [toPoly_pairVal, toPoly_cl] at hc
  rw [wmulStep, wordsPoly_xorInto _ (by omega), wordsPoly_xorInto _ (by omega), add_assoc]
  refine congrArg (wordsPoly P + ·) ?_
  have hx : (X : (ZMod 2)[X]) ^ (16 * (i.1 + j.1 + 1)) = X ^ 16 * X ^ (16 * i.1) * X ^ (16 * j.1) := by
    rw [← pow_add, ← pow_add]; congr 1; ring
  have hy : (X : (ZMod 2)[X]) ^ (16 * (i.1 + j.1)) = X ^ (16 * i.1) * X ^ (16 * j.1) := by
    rw [← pow_add]; congr 1; ring
  rw [hx, hy]
  exact wmulStep_algebra hc

/-- A fold whose every step adds f i to g ends with the sum of f added to g. -/
theorem foldl_adds {α β M : Type} [AddCommMonoid M] (g : β → M) (step : β → α → β) (f : α → M)
    (h : ∀ s i, g (step s i) = g s + f i) (l : List α) (s : β) :
    g (l.foldl step s) = g s + (l.map f).sum := by
  induction l generalizing s with
  | nil => simp
  | cons i l ih => rw [List.foldl_cons, ih, h, List.map_cons, List.sum_cons, add_assoc]

theorem sum_finRange {L : Nat} {M : Type} [AddCommMonoid M] (f : Fin L → M) :
    ((List.finRange L).map f).sum = ∑ i, f i := by
  simp [← List.ofFn_eq_map, List.sum_ofFn]

theorem wordsPoly_wmulWords {L : Nat} (a b : Poly L) : wordsPoly (wmulWords a b) = toPoly a.val * toPoly b.val := by
  have hinner : ∀ (P : Vector Word (2 * L)) (i : Fin L),
      wordsPoly ((List.finRange L).foldl (fun P j => wmulStep a b P i j) P)
        = wordsPoly P + toPoly a[L - 1 - i.1].toNat * X ^ (16 * i.1) * toPoly b.val := by
    intro P i
    rw [foldl_adds wordsPoly _ _ (fun P j => wordsPoly_wmulStep a b P i j), sum_finRange, ← Finset.mul_sum,
      ← toPoly_val_rev]
  have hzero : wordsPoly (Vector.replicate (2 * L) (0 : Word)) = 0 := by simp [wordsPoly]
  rw [wmulWords, foldl_adds wordsPoly _ _ hinner, sum_finRange, ← Finset.sum_mul, ← toPoly_val_rev, hzero, zero_add]

/-- The contract of `wmul` (R94): the halves are the exact product. -/
theorem wmul_spec {L : Nat} (a b : Poly L) : Poly.wideVal (wmul a b).1 (wmul a b).2 = cl a.val b.val := by
  apply toPoly_injective
  rw [toPoly_cl, ← wordsPoly_wmulWords, toPoly_wideVal, toPoly_val_rev, toPoly_val_rev, wordsPoly]
  have hsplit : ∀ f : Nat → (ZMod 2)[X], ∑ p : Fin (2 * L), f p.1 = (∑ i : Fin L, f i.1) + ∑ i : Fin L, f (L + i.1) := by
    intro f
    rw [Fin.sum_univ_eq_sum_range f, Fin.sum_univ_eq_sum_range f, Fin.sum_univ_eq_sum_range fun i => f (L + i),
      Nat.two_mul, Finset.sum_range_add]
  have hw : ∀ p : Fin (2 * L), toPoly (wmulWords a b)[p].toNat * (X : (ZMod 2)[X]) ^ (16 * p.1)
      = (fun q => toPoly ((wmulWords a b)[q]?.getD 0).toNat * X ^ (16 * q)) p.1 := by
    intro p; simp
  rw [Finset.sum_congr rfl fun p _ => hw p,
    hsplit fun q => toPoly ((wmulWords a b)[q]?.getD 0).toNat * X ^ (16 * q), add_comm, Finset.sum_mul]
  refine congrArg₂ (· + ·) ?_ ?_
  · apply Finset.sum_congr rfl
    intro i _
    have h1 : L - 1 - (L - 1 - i.1) = i.1 := by omega
    have h2 : i.1 < 2 * L := by omega
    simp [wmul, h1, h2]
  · apply Finset.sum_congr rfl
    intro i _
    have h1 : 2 * L - 1 - (L - 1 - i.1) = L + i.1 := by omega
    have h2 : L + i.1 < 2 * L := by omega
    simp only [wmul, Vector.getElem_ofFn, h1, Vector.getElem?_eq_getElem h2, Option.getD_some]
    rw [mul_assoc, ← pow_add]
    congr 2
    ring

end Sys2Proof.Laws
end

