-- ==== Sys2Proof/Laws/State.lean ====
section
/-! SUPPORT. One lemma per field per update of the state, so that no proof unfolds a record update. -/

namespace Sys2Proof.Laws

open Sys2Proof.Machine

/-! A command writes RH, RL and STATUS (R22, R24). -/

@[simp] theorem writeResults_a (s : State) (rh rl : Reg) (st : Status) : (s.writeResults rh rl st).a = s.a := rfl
@[simp] theorem writeResults_b (s : State) (rh rl : Reg) (st : Status) : (s.writeResults rh rl st).b = s.b := rfl
@[simp] theorem writeResults_rh (s : State) (rh rl : Reg) (st : Status) : (s.writeResults rh rl st).rh = rh := rfl
@[simp] theorem writeResults_rl (s : State) (rh rl : Reg) (st : Status) : (s.writeResults rh rl st).rl = rl := rfl
@[simp] theorem writeResults_status (s : State) (rh rl : Reg) (st : Status) : (s.writeResults rh rl st).status = st := rfl
@[simp] theorem writeResults_mods (s : State) (rh rl : Reg) (st : Status) : (s.writeResults rh rl st).mods = s.mods := rfl
@[simp] theorem writeResults_resetIn (s : State) (rh rl : Reg) (st : Status) : (s.writeResults rh rl st).resetIn = s.resetIn := rfl
@[simp] theorem writeResults_portWords (s : State) (rh rl : Reg) (st : Status) : (s.writeResults rh rl st).portWords = s.portWords := rfl
@[simp] theorem writeResults_drawn (s : State) (rh rl : Reg) (st : Status) : (s.writeResults rh rl st).drawn = s.drawn := rfl
@[simp] theorem writeResults_events (s : State) (rh rl : Reg) (st : Status) : (s.writeResults rh rl st).events = s.events := rfl
@[simp] theorem writeResults_answers (s : State) (rh rl : Reg) (st : Status) : (s.writeResults rh rl st).answers = s.answers := rfl

@[simp] theorem writeElement_eq {L : Nat} (s : State) (p : Poly L) :
    s.writeElement p = s.writeResults Reg.zero (Reg.ofPoly p) Status.clear := rfl
@[simp] theorem writePair_eq {L : Nat} (s : State) (hi lo : Poly L) :
    s.writePair hi lo = s.writeResults (Reg.ofPoly hi) (Reg.ofPoly lo) Status.clear := rfl
@[simp] theorem writePredicate_eq (s : State) (p : Bool) :
    s.writePredicate p = s.writeResults Reg.zero Reg.zero (Status.ofPredicate p) := rfl
@[simp] theorem reservedCommand_eq (s : State) :
    s.reservedCommand = s.writeResults Reg.zero Reg.zero Status.reservedWord := rfl

/-! One draw (R31). -/

@[simp] theorem afterDraw_a (s : State) : (s.afterDraw).a = s.a := rfl
@[simp] theorem afterDraw_b (s : State) : (s.afterDraw).b = s.b := rfl
@[simp] theorem afterDraw_rh (s : State) : (s.afterDraw).rh = s.rh := rfl
@[simp] theorem afterDraw_rl (s : State) : (s.afterDraw).rl = s.rl := rfl
@[simp] theorem afterDraw_status (s : State) : (s.afterDraw).status = s.status := rfl
@[simp] theorem afterDraw_mods (s : State) : (s.afterDraw).mods = s.mods := rfl
@[simp] theorem afterDraw_resetIn (s : State) : (s.afterDraw).resetIn = s.resetIn := rfl
@[simp] theorem afterDraw_portWords (s : State) : (s.afterDraw).portWords = s.portWords.tail := rfl
@[simp] theorem afterDraw_drawn (s : State) : (s.afterDraw).drawn = s.drawn + 1 := rfl
@[simp] theorem afterDraw_events (s : State) : (s.afterDraw).events = s.events := rfl
@[simp] theorem afterDraw_answers (s : State) : (s.afterDraw).answers = s.answers := rfl

/-! Releasing reset (R34, R170, R171). -/

@[simp] theorem releaseReset_a (s : State) : (s.releaseReset).a = Reg.zero := rfl
@[simp] theorem releaseReset_b (s : State) : (s.releaseReset).b = Reg.zero := rfl
@[simp] theorem releaseReset_rh (s : State) : (s.releaseReset).rh = Reg.zero := rfl
@[simp] theorem releaseReset_rl (s : State) : (s.releaseReset).rl = Reg.zero := rfl
@[simp] theorem releaseReset_status (s : State) : (s.releaseReset).status = Status.clear := rfl
@[simp] theorem releaseReset_mods (s : State) : (s.releaseReset).mods = s.mods := rfl
@[simp] theorem releaseReset_resetIn (s : State) : (s.releaseReset).resetIn = false := rfl
@[simp] theorem releaseReset_portWords (s : State) : (s.releaseReset).portWords = s.portWords := rfl
@[simp] theorem releaseReset_drawn (s : State) : (s.releaseReset).drawn = s.drawn := rfl
@[simp] theorem releaseReset_events (s : State) : (s.releaseReset).events = s.events := rfl
@[simp] theorem releaseReset_answers (s : State) : (s.releaseReset).answers = s.answers := rfl

/-! A word returned to the host (R43). -/

@[simp] theorem answer_a (s : State) (w : Word) : (s.answer w).a = s.a := rfl
@[simp] theorem answer_b (s : State) (w : Word) : (s.answer w).b = s.b := rfl
@[simp] theorem answer_rh (s : State) (w : Word) : (s.answer w).rh = s.rh := rfl
@[simp] theorem answer_rl (s : State) (w : Word) : (s.answer w).rl = s.rl := rfl
@[simp] theorem answer_status (s : State) (w : Word) : (s.answer w).status = s.status := rfl
@[simp] theorem answer_mods (s : State) (w : Word) : (s.answer w).mods = s.mods := rfl
@[simp] theorem answer_resetIn (s : State) (w : Word) : (s.answer w).resetIn = s.resetIn := rfl
@[simp] theorem answer_portWords (s : State) (w : Word) : (s.answer w).portWords = s.portWords := rfl
@[simp] theorem answer_drawn (s : State) (w : Word) : (s.answer w).drawn = s.drawn := rfl
@[simp] theorem answer_events (s : State) (w : Word) : (s.answer w).events = s.events := rfl
@[simp] theorem answer_answers (s : State) (w : Word) : (s.answer w).answers = w :: s.answers := rfl

/-! Drawing n words (R129). -/

@[simp] theorem afterDraws_a (n : Nat) (s : State) : (State.afterDraws n s).a = s.a := by
  induction n generalizing s with
  | zero => rfl
  | succ n ih => rw [State.afterDraws, ih, afterDraw_a]
@[simp] theorem afterDraws_b (n : Nat) (s : State) : (State.afterDraws n s).b = s.b := by
  induction n generalizing s with
  | zero => rfl
  | succ n ih => rw [State.afterDraws, ih, afterDraw_b]
@[simp] theorem afterDraws_rh (n : Nat) (s : State) : (State.afterDraws n s).rh = s.rh := by
  induction n generalizing s with
  | zero => rfl
  | succ n ih => rw [State.afterDraws, ih, afterDraw_rh]
@[simp] theorem afterDraws_rl (n : Nat) (s : State) : (State.afterDraws n s).rl = s.rl := by
  induction n generalizing s with
  | zero => rfl
  | succ n ih => rw [State.afterDraws, ih, afterDraw_rl]
@[simp] theorem afterDraws_status (n : Nat) (s : State) : (State.afterDraws n s).status = s.status := by
  induction n generalizing s with
  | zero => rfl
  | succ n ih => rw [State.afterDraws, ih, afterDraw_status]
@[simp] theorem afterDraws_mods (n : Nat) (s : State) : (State.afterDraws n s).mods = s.mods := by
  induction n generalizing s with
  | zero => rfl
  | succ n ih => rw [State.afterDraws, ih, afterDraw_mods]
@[simp] theorem afterDraws_resetIn (n : Nat) (s : State) : (State.afterDraws n s).resetIn = s.resetIn := by
  induction n generalizing s with
  | zero => rfl
  | succ n ih => rw [State.afterDraws, ih, afterDraw_resetIn]
@[simp] theorem afterDraws_portWords (n : Nat) (s : State) : (State.afterDraws n s).portWords = s.portWords.drop n := by
  induction n generalizing s with
  | zero => rfl
  | succ n ih => rw [State.afterDraws, ih, afterDraw_portWords, List.drop_tail]
@[simp] theorem afterDraws_drawn (n : Nat) (s : State) : (State.afterDraws n s).drawn = s.drawn + n := by
  induction n generalizing s with
  | zero => rfl
  | succ n ih => rw [State.afterDraws, ih, afterDraw_drawn]; omega
@[simp] theorem afterDraws_events (n : Nat) (s : State) : (State.afterDraws n s).events = s.events := by
  induction n generalizing s with
  | zero => rfl
  | succ n ih => rw [State.afterDraws, ih, afterDraw_events]
@[simp] theorem afterDraws_answers (n : Nat) (s : State) : (State.afterDraws n s).answers = s.answers := by
  induction n generalizing s with
  | zero => rfl
  | succ n ih => rw [State.afterDraws, ih, afterDraw_answers]

@[simp] theorem drawWords_length (n : Nat) (s : State) : (State.drawWords n s).length = n := by
  induction n generalizing s with
  | zero => rfl
  | succ n ih => rw [State.drawWords, List.length_cons, ih]

/-- The k-th of n words drawn is the word the port delivers after k draws. -/
theorem drawWords_getElem (n : Nat) (s : State) (k : Nat) (h : k < n) :
    (State.drawWords n s)[k]'(by simpa using h) = (State.afterDraws k s).nextWord := by
  induction n generalizing s k with
  | zero => omega
  | succ n ih =>
    cases k with
    | zero => rfl
    | succ k => exact ih s.afterDraw k (by omega)

/-- The word of the k-th coming draw: the k-th waiting at the port, else the free word of that draw (R31; log 3). -/
theorem nextWord_afterDraws (k : Nat) (s : State) :
    (State.afterDraws k s).nextWord = (s.portWords[k]?).getD (Config.randomWord (s.drawn + k)) := by
  rw [State.nextWord, afterDraws_portWords, afterDraws_drawn]
  cases h : s.portWords.drop k with
  | nil =>
    have : s.portWords.length ≤ k := List.drop_eq_nil_iff.1 h
    simp [List.getElem?_eq_none this]
  | cons w ws =>
    have h1 : (s.portWords.drop k)[0]? = some w := by rw [h]; rfl
    rw [List.getElem?_drop, Nat.add_zero] at h1
    simp [h1]

end Sys2Proof.Laws
end

