-- ==== Sys2Proof/Laws/Step.lean ====
section
/-! SUPPORT. What a command, an access and a step can do, each said once; later proofs take these cases instead of
unfolding `exec` and `step`. -/

namespace Sys2Proof.Laws

open Sys2Proof.Machine

/-- How many words a command draws (R129): RANDOM.f draws L(f), every other command none. -/
def drawCount : Instr → Nat
  | .random128 => 8
  | .random192 => 12
  | .random256 => 16
  | _ => 0

/-- Every command answers a next state: it draws its words, then writes RH, RL and STATUS, and nothing else (R22, R24). -/
theorem exec_writes (i : Instr) (s : State) :
    ∃ rh rl st, exec i s = .next ((State.afterDraws (drawCount i) s).writeResults rh rl st) := by
  have hinv : ∀ f, ∃ rh rl st, (Host.Outcome.next (invCommand f s) : Host.Outcome State Fault Refusal)
      = .next ((State.afterDraws 0 s).writeResults rh rl st) := by
    intro f
    unfold invCommand
    split
    · exact ⟨_, _, _, rfl⟩
    · exact ⟨_, _, _, rfl⟩
  cases i
  case inv128 => exact hinv .f128
  case inv192 => exact hinv .f192
  case inv256 => exact hinv .f256
  all_goals exact ⟨_, _, _, rfl⟩

/-- What a write to CMD does: the decoded command, or the reserved word's effect (R64, R68). -/
theorem command_cases (s : State) (c : Word) :
    (∃ i, decode c = .ok i ∧ s.command c = exec i s)
      ∨ (∃ e, decode c = .error e ∧ s.command c = .next s.reservedCommand) := by
  unfold State.command
  cases h : decode c with
  | ok i => exact .inl ⟨i, rfl, rfl⟩
  | error e => exact .inr ⟨e, rfl, rfl⟩

/-- A register write changes A or B alone (R44). -/
theorem regStore_cases (s : State) (addr : Address) (v : Word) :
    (addr.toNat ≤ 0x0F ∧ s.regStore addr v = { s with a := s.a.setLimb addr.toNat v })
      ∨ (0x10 ≤ addr.toNat ∧ addr.toNat ≤ 0x1F ∧ s.regStore addr v = { s with b := s.b.setLimb (addr.toNat - 0x10) v })
      ∨ (0x20 ≤ addr.toNat ∧ s.regStore addr v = s) := by
  unfold State.regStore
  by_cases h1 : addr.toNat ≤ 0x0F
  · exact .inl ⟨h1, by simp [h1]⟩
  · by_cases h2 : addr.toNat ≤ 0x1F
    · exact .inr (.inl ⟨by omega, h2, by simp [h1, h2]⟩)
    · exact .inr (.inr ⟨by omega, by simp [h1, h2]⟩)

/-- Every write answers a next state: a command's, or a register write's (R44, R150). -/
theorem regWrite_next (s : State) (addr : Address) (v : Word) : ∃ t, s.regWrite addr v = .next t := by
  unfold State.regWrite
  split
  · rcases command_cases s v with ⟨i, -, h⟩ | ⟨e, -, h⟩
    · obtain ⟨rh, rl, st, he⟩ := exec_writes i s
      exact ⟨_, by rw [h, he]⟩
    · exact ⟨_, h⟩
  · exact ⟨_, rfl⟩

/-- A step takes the next event and performs it; with none it changes nothing (R18, R72). -/
theorem step_cases (s : State) :
    (s.events = [] ∧ step s = .next s)
      ∨ ∃ e rest, s.events = e :: rest ∧ step s = State.perform { s with events := rest } e := by
  unfold step State.advance
  cases h : s.events with
  | nil => exact .inl ⟨rfl, rfl⟩
  | cons e rest => exact .inr ⟨e, rest, rfl, rfl⟩

end Sys2Proof.Laws
end

