-- ==== Sys2Proof/Tests/Slice0.lean ====
section
/-! SUPPORT. Tests: ill-formed words, decoding of words written out from the field tables, vectors of
95_test_vectors.md, host accesses at the ends of each address range, and, for every obligation with hypotheses, a
state and operands that meet them. Expected values come from the spec's tables or by hand from its rules. -/

namespace Sys2Proof.Tests

set_option Elab.async false

open Sys2Proof Sys2Proof.Machine

/-- A register from its limbs, limb 0 first, 0 where the list ends. -/
def registerOf (ws : List Word) : Reg := Vector.ofFn fun k => ws.getD k.1 0

/-- The state after reset but for A, B, and results that are not zero. -/
def dirty (a b : Reg) : State :=
  { State.reset with
    a := a, b := b, rh := Vector.replicate 16 0x5555, rl := Vector.replicate 16 0x5555
    status := { NONE := false, T := true, ILL := false }, drawn := 5 }

/-- The next state, where there is one. -/
def next? (o : Host.Outcome State Fault Refusal) : Option State :=
  match o with
  | .next t => some t
  | _ => none

/-- RH, RL and STATUS after one command on the limbs of A and B. -/
def resultOf (c : Nat) (a b : List Word) : Option (Reg × Reg × Word) :=
  (next? (step ((dirty (registerOf a) (registerOf b)).withFetchWord 16 c))).map fun t => (t.rh, t.rl, t.status.word)

/-- RL, how many words are left at the port, and how many have been drawn, after one command with 5 drawn before. -/
def drawnBy (c : Nat) (port : List Nat) : Option (List Word × Nat × Nat) :=
  (next? (step (({ dirty Reg.zero Reg.zero with portWords := port.map (BitVec.ofNat 16) } : State).withFetchWord 16 c))).map
    fun t => (t.rl.toList, t.portWords.length, t.drawn)

/-- The words read by a list of host accesses from reset, oldest first. -/
def reads (es : List HostEvent) : Option (List Word) :=
  (next? (Sys2Proof.core.run es.length { State.reset with events := es })).map fun t => t.answers.reverse

/-! ### Well-formedness: one ill-formed word for each check, and a limb list of the wrong length -/

/-- V-ILL-12: bit 15 set. -/
theorem test_ill_formed_high_bit :
    (CommandFields.ofWord 0x8005).z1Ok = false ∧ (CommandFields.ofWord 0x8005).wellFormed = false := by decide +kernel

/-- V-ILL-9: bit 4 set. -/
theorem test_ill_formed_middle_bit :
    (CommandFields.ofWord 0x0015).z0Ok = false ∧ (CommandFields.ofWord 0x0015).wellFormed = false := by decide +kernel

/-- V-ILL-1: OP 0xD. -/
theorem test_ill_formed_op :
    (CommandFields.ofWord 0x000D).opOk = false ∧ (CommandFields.ofWord 0x000D).wellFormed = false := by decide +kernel

/-- V-ILL-7: FSEL 11 with OP MUL. -/
theorem test_ill_formed_fsel :
    (CommandFields.ofWord 0x00C5).fselOk = false ∧ (CommandFields.ofWord 0x00C5).wellFormed = false := by decide +kernel

/-- V-ILL-4: CLMUL with FSEL 01. -/
theorem test_ill_formed_clmul_field :
    (CommandFields.ofWord 0x004C).clmulOk = false ∧ (CommandFields.ofWord 0x004C).wellFormed = false := by decide +kernel

/-- 0x0005 is MUL.128 (R65). -/
theorem test_well_formed_mul128 :
    (CommandFields.ofWord 0x0005).wellFormed = true := by decide +kernel

/-- LDA.128 takes exactly 8 limbs (R72). -/
theorem test_ill_formed_limb_list :
    (Statement.lda .f128 [1, 2, 3]).wellFormed = false := by decide +kernel

/-- LDB.128 with 8 limbs (R72). -/
theorem test_well_formed_limb_list :
    (Statement.ldb .f128 [1, 2, 3, 4, 5, 6, 7, 8]).wellFormed = true := by decide +kernel

/-! ### Decoding: words written out as Z1, FSEL, Z0, OP (R60 to R62) -/

/-- The twelve commands of F128 (R61, R62). -/
theorem test_decode_128 :
    decode 0b00000000_00_00_0000 = .ok .zero128
    ∧ decode 0b00000000_00_00_0001 = .ok .one128
    ∧ decode 0b00000000_00_00_0010 = .ok .random128
    ∧ decode 0b00000000_00_00_0011 = .ok .add128
    ∧ decode 0b00000000_00_00_0100 = .ok .sub128
    ∧ decode 0b00000000_00_00_0101 = .ok .mul128
    ∧ decode 0b00000000_00_00_0110 = .ok .inv128
    ∧ decode 0b00000000_00_00_0111 = .ok .iszero128
    ∧ decode 0b00000000_00_00_1000 = .ok .isone128
    ∧ decode 0b00000000_00_00_1001 = .ok .eq128
    ∧ decode 0b00000000_00_00_1010 = .ok .wmul128
    ∧ decode 0b00000000_00_00_1011 = .ok .divrem128 := by decide +kernel

/-- The twelve commands of F192 (R61, R62). -/
theorem test_decode_192 :
    decode 0b00000000_01_00_0000 = .ok .zero192
    ∧ decode 0b00000000_01_00_0001 = .ok .one192
    ∧ decode 0b00000000_01_00_0010 = .ok .random192
    ∧ decode 0b00000000_01_00_0011 = .ok .add192
    ∧ decode 0b00000000_01_00_0100 = .ok .sub192
    ∧ decode 0b00000000_01_00_0101 = .ok .mul192
    ∧ decode 0b00000000_01_00_0110 = .ok .inv192
    ∧ decode 0b00000000_01_00_0111 = .ok .iszero192
    ∧ decode 0b00000000_01_00_1000 = .ok .isone192
    ∧ decode 0b00000000_01_00_1001 = .ok .eq192
    ∧ decode 0b00000000_01_00_1010 = .ok .wmul192
    ∧ decode 0b00000000_01_00_1011 = .ok .divrem192 := by decide +kernel

/-- The twelve commands of F256 (R61, R62). -/
theorem test_decode_256 :
    decode 0b00000000_10_00_0000 = .ok .zero256
    ∧ decode 0b00000000_10_00_0001 = .ok .one256
    ∧ decode 0b00000000_10_00_0010 = .ok .random256
    ∧ decode 0b00000000_10_00_0011 = .ok .add256
    ∧ decode 0b00000000_10_00_0100 = .ok .sub256
    ∧ decode 0b00000000_10_00_0101 = .ok .mul256
    ∧ decode 0b00000000_10_00_0110 = .ok .inv256
    ∧ decode 0b00000000_10_00_0111 = .ok .iszero256
    ∧ decode 0b00000000_10_00_1000 = .ok .isone256
    ∧ decode 0b00000000_10_00_1001 = .ok .eq256
    ∧ decode 0b00000000_10_00_1010 = .ok .wmul256
    ∧ decode 0b00000000_10_00_1011 = .ok .divrem256 := by decide +kernel

/-- CLMUL: OP 0xC with FSEL 00 (R61). -/
theorem test_decode_clmul :
    decode 0b00000000_00_00_1100 = .ok .clmul := by decide +kernel

/-- V-ILL-1, 4, 7, 9, 11: the five kinds of reserved word. -/
theorem test_decode_reserved :
    decode 0b00000000_00_00_1101 = .error .reservedOp
    ∧ decode 0b00000000_01_00_1100 = .error .clmulWithField ∧ decode 0b00000000_11_00_0101 = .error .reservedField
    ∧ decode 0b00000000_00_01_0101 = .error .middleBitsSet ∧ decode 0b00000001_00_00_0101 = .error .highBitsSet := by decide +kernel

/-! ### Commands: vectors of 95_test_vectors.md; the words of RH, RL and STATUS before are not zero -/

/-- V-MUL-4.128. -/
theorem test_mul128 :
    resultOf 0x0005
      [0x0123, 0x4567, 0x89AB, 0xCDEF, 0xFEDC, 0xBA98, 0x7654, 0x3210]
      [0x0F1E, 0x2D3C, 0x4B5A, 0x6978, 0x8796, 0xA5B4, 0xC3D2, 0xE1F0]
    = some (registerOf [],
      registerOf [0x7F29, 0x84F7, 0x8496, 0x7F5A, 0x7B88, 0x1BF2, 0xB700, 0xD768], 0x0000) := by decide +kernel

/-- V-INV-5.128. -/
theorem test_inv128 :
    resultOf 0x0006
      [0x0F1E, 0x2D3C, 0x4B5A, 0x6978, 0x8796, 0xA5B4, 0xC3D2, 0xE1F0]
      []
    = some (registerOf [],
      registerOf [0xC3C7, 0x7610, 0xFAB2, 0xF8F2, 0x3C71, 0x3D3F, 0x0A3E, 0x03A2], 0x0000) := by decide +kernel

/-- V-WMUL-8.128. -/
theorem test_wmul128 :
    resultOf 0x000A
      [0x0123, 0x4567, 0x89AB, 0xCDEF, 0xFEDC, 0xBA98, 0x7654, 0x3210]
      [0x0F1E, 0x2D3C, 0x4B5A, 0x6978, 0x8796, 0xA5B4, 0xC3D2, 0xE1F0]
    = some (registerOf [0x000E, 0xEF3C, 0x0FBA, 0xE088, 0x25BC, 0xF4B0, 0x5674, 0x8778],
      registerOf [0x7876, 0x9744, 0x77C2, 0x98F0, 0x5DC4, 0x8CC8, 0x2E0C, 0xFF00], 0x0000) := by decide +kernel

/-- V-DIVREM-2.128. -/
theorem test_divrem128 :
    resultOf 0x000B
      [0x8000, 0x0000, 0x0000, 0x0000, 0x0000, 0x0000, 0x0000, 0x0000]
      [0x0000, 0x0000, 0x0000, 0x0000, 0x0000, 0x0000, 0x0000, 0x0000]
    = some (registerOf [0x8000, 0x0000, 0x0000, 0x0000, 0x0000, 0x0000, 0x0000, 0x0043],
      registerOf [0x8000, 0x0000, 0x0000, 0x0000, 0x0000, 0x0000, 0x0000, 0x2049], 0x0000) := by decide +kernel

/-- V-MUL-4.192. -/
theorem test_mul192 :
    resultOf 0x0045
      [0x0123, 0x4567, 0x89AB, 0xCDEF, 0xFEDC, 0xBA98, 0x7654, 0x3210, 0x0011, 0x2233, 0x4455, 0x6677]
      [0x0F1E, 0x2D3C, 0x4B5A, 0x6978, 0x8796, 0xA5B4, 0xC3D2, 0xE1F0, 0xFFEE, 0xDDCC, 0xBBAA, 0x9988]
    = some (registerOf [],
      registerOf [0x3FF9, 0xF417, 0xA426, 0x6FDA, 0x43C0, 0x33AA, 0xAF68, 0xDF2D, 0x3058, 0x0D58, 0x5D35, 0x6008], 0x0000) := by decide +kernel

/-- V-INV-5.192. -/
theorem test_inv192 :
    resultOf 0x0046
      [0x0F1E, 0x2D3C, 0x4B5A, 0x6978, 0x8796, 0xA5B4, 0xC3D2, 0xE1F0, 0xFFEE, 0xDDCC, 0xBBAA, 0x9988]
      []
    = some (registerOf [],
      registerOf [0xF3FC, 0x7DC8, 0xF837, 0x888C, 0xE308, 0xD0B3, 0xDF79, 0xFE5E, 0x2D8F, 0x9964, 0x81F3, 0x2C3C], 0x0000) := by decide +kernel

/-- V-WMUL-8.192. -/
theorem test_wmul192 :
    resultOf 0x004A
      [0x0123, 0x4567, 0x89AB, 0xCDEF, 0xFEDC, 0xBA98, 0x7654, 0x3210, 0x0011, 0x2233, 0x4455, 0x6677]
      [0x0F1E, 0x2D3C, 0x4B5A, 0x6978, 0x8796, 0xA5B4, 0xC3D2, 0xE1F0, 0xFFEE, 0xDDCC, 0xBBAA, 0x9988]
    = some (registerOf [0x000E, 0xEF3C, 0x0FBA, 0xE088, 0x25BC, 0xF4B0, 0x5674, 0x8778, 0x7897, 0x47A8, 0x00EF, 0x3FD0],
      registerOf [0x38A6, 0xE7A4, 0x5772, 0x8870, 0x658C, 0xA490, 0x3664, 0xF778, 0x101F, 0x0F00, 0x2827, 0x3738], 0x0000) := by decide +kernel

/-- V-DIVREM-2.192. -/
theorem test_divrem192 :
    resultOf 0x004B
      [0x8000, 0x0000, 0x0000, 0x0000, 0x0000, 0x0000, 0x0000, 0x0000, 0x0000, 0x0000, 0x0000, 0x0000]
      [0x0000, 0x0000, 0x0000, 0x0000, 0x0000, 0x0000, 0x0000, 0x0000, 0x0000, 0x0000, 0x0000, 0x0000]
    = some (registerOf [0x8000, 0x0000, 0x0000, 0x0000, 0x0000, 0x0000, 0x0000, 0x0000, 0x0000, 0x0000, 0x0000, 0x0043],
      registerOf [0x8000, 0x0000, 0x0000, 0x0000, 0x0000, 0x0000, 0x0000, 0x0000, 0x0000, 0x0000, 0x0000, 0x2049], 0x0000) := by decide +kernel

/-- V-MUL-4.256. -/
theorem test_mul256 :
    resultOf 0x0085
      [0x0123, 0x4567, 0x89AB, 0xCDEF, 0xFEDC, 0xBA98, 0x7654, 0x3210, 0x0011, 0x2233, 0x4455, 0x6677, 0x8899, 0xAABB, 0xCCDD, 0xEEFF]
      [0x0F1E, 0x2D3C, 0x4B5A, 0x6978, 0x8796, 0xA5B4, 0xC3D2, 0xE1F0, 0xFFEE, 0xDDCC, 0xBBAA, 0x9988, 0x7766, 0x5544, 0x3322, 0x1100]
    = some (registerOf [],
      registerOf [0x0282, 0xB3B7, 0x5AAD, 0xEB0A, 0xC5B7, 0xB2BA, 0x1217, 0x6464, 0x9573, 0x535B, 0xDA3C, 0x1D03, 0xB254, 0x747C, 0xFD1B, 0x3BC8], 0x0000) := by decide +kernel

/-- V-INV-5.256. -/
theorem test_inv256 :
    resultOf 0x0086
      [0x0F1E, 0x2D3C, 0x4B5A, 0x6978, 0x8796, 0xA5B4, 0xC3D2, 0xE1F0, 0xFFEE, 0xDDCC, 0xBBAA, 0x9988, 0x7766, 0x5544, 0x3322, 0x1100]
      []
    = some (registerOf [],
      registerOf [0xE987, 0x5A68, 0x8671, 0xBE60, 0xBBA9, 0x306E, 0x4605, 0x0A2A, 0x7073, 0x6AA4, 0xDE01, 0x1622, 0xB059, 0x6220, 0xBDF1, 0xF18D], 0x0000) := by decide +kernel

/-- V-WMUL-8.256. -/
theorem test_wmul256 :
    resultOf 0x008A
      [0x0123, 0x4567, 0x89AB, 0xCDEF, 0xFEDC, 0xBA98, 0x7654, 0x3210, 0x0011, 0x2233, 0x4455, 0x6677, 0x8899, 0xAABB, 0xCCDD, 0xEEFF]
      [0x0F1E, 0x2D3C, 0x4B5A, 0x6978, 0x8796, 0xA5B4, 0xC3D2, 0xE1F0, 0xFFEE, 0xDDCC, 0xBBAA, 0x9988, 0x7766, 0x5544, 0x3322, 0x1100]
    = some (registerOf [0x000E, 0xEF3C, 0x0FBA, 0xE088, 0x25BC, 0xF4B0, 0x5674, 0x8778, 0x7897, 0x47A8, 0x00EF, 0x3FD0, 0x3F2F, 0x0010, 0x4757, 0x7868],
      registerOf [0x38D6, 0xF7C4, 0x7722, 0xB830, 0x32B4, 0xC398, 0x013C, 0xF010, 0x404F, 0x5F50, 0x7877, 0x6768, 0x2827, 0x3738, 0x101F, 0x0F00], 0x0000) := by decide +kernel

/-- V-DIVREM-2.256. -/
theorem test_divrem256 :
    resultOf 0x008B
      [0x8000, 0x0000, 0x0000, 0x0000, 0x0000, 0x0000, 0x0000, 0x0000, 0x0000, 0x0000, 0x0000, 0x0000, 0x0000, 0x0000, 0x0000, 0x0000]
      [0x0000, 0x0000, 0x0000, 0x0000, 0x0000, 0x0000, 0x0000, 0x0000, 0x0000, 0x0000, 0x0000, 0x0000, 0x0000, 0x0000, 0x0000, 0x0000]
    = some (registerOf [0x8000, 0x0000, 0x0000, 0x0000, 0x0000, 0x0000, 0x0000, 0x0000, 0x0000, 0x0000, 0x0000, 0x0000, 0x0000, 0x0000, 0x0000, 0x0212],
      registerOf [0x8000, 0x0000, 0x0000, 0x0000, 0x0000, 0x0000, 0x0000, 0x0000, 0x0000, 0x0000, 0x0000, 0x0000, 0x0000, 0x0000, 0x0008, 0x001A], 0x0000) := by decide +kernel

/-- V-INV-8.128: inv(ZERO) is None. -/
theorem test_inv128_zero :
    resultOf 0x0006
      [0x0000, 0x0000, 0x0000, 0x0000, 0x0000, 0x0000, 0x0000, 0x0000, 0x0001, 0x0001, 0x0001, 0x0001, 0x0001, 0x0001, 0x0001, 0x0001]
      [0x0F1E, 0x2D3C, 0x4B5A, 0x6978, 0x8796, 0xA5B4, 0xC3D2, 0xE1F0, 0xFFEE, 0xDDCC, 0xBBAA, 0x9988, 0x7766, 0x5544, 0x3322, 0x1100]
    = some (registerOf [],
      registerOf [], 0x0001) := by decide +kernel

/-- R127, from registers that are not zero. -/
theorem test_zero128 :
    resultOf 0x0000
      [0x0123, 0x4567, 0x89AB, 0xCDEF, 0xFEDC, 0xBA98, 0x7654, 0x3210, 0x0011, 0x2233, 0x4455, 0x6677, 0x8899, 0xAABB, 0xCCDD, 0xEEFF]
      [0x0F1E, 0x2D3C, 0x4B5A, 0x6978, 0x8796, 0xA5B4, 0xC3D2, 0xE1F0, 0xFFEE, 0xDDCC, 0xBBAA, 0x9988, 0x7766, 0x5544, 0x3322, 0x1100]
    = some (registerOf [],
      registerOf [], 0x0000) := by decide +kernel

/-- R128. -/
theorem test_one128 :
    resultOf 0x0001
      [0x0123, 0x4567, 0x89AB, 0xCDEF, 0xFEDC, 0xBA98, 0x7654, 0x3210, 0x0011, 0x2233, 0x4455, 0x6677, 0x8899, 0xAABB, 0xCCDD, 0xEEFF]
      [0x0F1E, 0x2D3C, 0x4B5A, 0x6978, 0x8796, 0xA5B4, 0xC3D2, 0xE1F0, 0xFFEE, 0xDDCC, 0xBBAA, 0x9988, 0x7766, 0x5544, 0x3322, 0x1100]
    = some (registerOf [],
      registerOf [0x0000, 0x0000, 0x0000, 0x0000, 0x0000, 0x0000, 0x0000, 0x0001], 0x0000) := by decide +kernel

/-- V-ADD-5.128: limb 8 is not computed. -/
theorem test_add128 :
    resultOf 0x0003
      [0x0123, 0x4567, 0x89AB, 0xCDEF, 0xFEDC, 0xBA98, 0x7654, 0x3210, 0xDEAD]
      [0x0F1E, 0x2D3C, 0x4B5A, 0x6978, 0x8796, 0xA5B4, 0xC3D2, 0xE1F0]
    = some (registerOf [],
      registerOf [0x0E3D, 0x685B, 0xC2F1, 0xA497, 0x794A, 0x1F2C, 0xB586, 0xD3E0], 0x0000) := by decide +kernel

/-- V-SUB: the same words as ADD. -/
theorem test_sub128 :
    resultOf 0x0004
      [0x0123, 0x4567, 0x89AB, 0xCDEF, 0xFEDC, 0xBA98, 0x7654, 0x3210, 0xDEAD]
      [0x0F1E, 0x2D3C, 0x4B5A, 0x6978, 0x8796, 0xA5B4, 0xC3D2, 0xE1F0]
    = some (registerOf [],
      registerOf [0x0E3D, 0x685B, 0xC2F1, 0xA497, 0x794A, 0x1F2C, 0xB586, 0xD3E0], 0x0000) := by decide +kernel

/-- R134: a limb at or above L does not count, the lowest limb does. -/
theorem test_iszero128 :
    resultOf 0x0007
      [0x0000, 0x0000, 0x0000, 0x0000, 0x0000, 0x0000, 0x0000, 0x0000, 0x0001, 0x0001, 0x0001, 0x0001, 0x0001, 0x0001, 0x0001, 0x0001]
      [0x0F1E, 0x2D3C, 0x4B5A, 0x6978, 0x8796, 0xA5B4, 0xC3D2, 0xE1F0, 0xFFEE, 0xDDCC, 0xBBAA, 0x9988, 0x7766, 0x5544, 0x3322, 0x1100]
    = some (registerOf [],
      registerOf [], 0x0002)
    ∧ resultOf 0x0007
      [0x0000, 0x0000, 0x0000, 0x0000, 0x0000, 0x0000, 0x0000, 0x0001]
      [0x0F1E, 0x2D3C, 0x4B5A, 0x6978, 0x8796, 0xA5B4, 0xC3D2, 0xE1F0, 0xFFEE, 0xDDCC, 0xBBAA, 0x9988, 0x7766, 0x5544, 0x3322, 0x1100]
    = some (registerOf [],
      registerOf [], 0x0000) := by decide +kernel

/-- R135: the 1 stands in limb L-1, not in limb 0. -/
theorem test_isone128 :
    resultOf 0x0008
      [0x0000, 0x0000, 0x0000, 0x0000, 0x0000, 0x0000, 0x0000, 0x0001, 0x0007, 0x0007, 0x0007, 0x0007, 0x0007, 0x0007, 0x0007, 0x0007]
      [0x0F1E, 0x2D3C, 0x4B5A, 0x6978, 0x8796, 0xA5B4, 0xC3D2, 0xE1F0, 0xFFEE, 0xDDCC, 0xBBAA, 0x9988, 0x7766, 0x5544, 0x3322, 0x1100]
    = some (registerOf [],
      registerOf [], 0x0002)
    ∧ resultOf 0x0008
      [0x0001]
      [0x0F1E, 0x2D3C, 0x4B5A, 0x6978, 0x8796, 0xA5B4, 0xC3D2, 0xE1F0, 0xFFEE, 0xDDCC, 0xBBAA, 0x9988, 0x7766, 0x5544, 0x3322, 0x1100]
    = some (registerOf [],
      registerOf [], 0x0000) := by decide +kernel

/-- R136: limbs at or above L are not compared, the last below L is. -/
theorem test_eq128 :
    resultOf 0x0009
      [0x0123, 0x4567, 0x89AB, 0xCDEF, 0xFEDC, 0xBA98, 0x7654, 0x3210, 0x0001, 0x0001, 0x0001, 0x0001, 0x0001, 0x0001, 0x0001, 0x0001]
      [0x0123, 0x4567, 0x89AB, 0xCDEF, 0xFEDC, 0xBA98, 0x7654, 0x3210, 0x0002, 0x0002, 0x0002, 0x0002, 0x0002, 0x0002, 0x0002, 0x0002]
    = some (registerOf [],
      registerOf [], 0x0002)
    ∧ resultOf 0x0009
      [0x0123, 0x4567, 0x89AB, 0xCDEF, 0xFEDC, 0xBA98, 0x7654, 0x0000]
      [0x0123, 0x4567, 0x89AB, 0xCDEF, 0xFEDC, 0xBA98, 0x7654, 0x0001]
    = some (registerOf [],
      registerOf [], 0x0000) := by decide +kernel

/-- R129: the first drawn word is limb 0, exactly L words leave the port. -/
theorem test_random128 :
    drawnBy 0x0002 (List.range 20) = some ((List.range 8).map (BitVec.ofNat 16) ++ List.replicate 8 0, 12, 13) := by decide +kernel

/-- V-INV-8.192: inv(ZERO) is None. -/
theorem test_inv192_zero :
    resultOf 0x0046
      [0x0000, 0x0000, 0x0000, 0x0000, 0x0000, 0x0000, 0x0000, 0x0000, 0x0000, 0x0000, 0x0000, 0x0000, 0x0001, 0x0001, 0x0001, 0x0001]
      [0x0F1E, 0x2D3C, 0x4B5A, 0x6978, 0x8796, 0xA5B4, 0xC3D2, 0xE1F0, 0xFFEE, 0xDDCC, 0xBBAA, 0x9988, 0x7766, 0x5544, 0x3322, 0x1100]
    = some (registerOf [],
      registerOf [], 0x0001) := by decide +kernel

/-- R127, from registers that are not zero. -/
theorem test_zero192 :
    resultOf 0x0040
      [0x0123, 0x4567, 0x89AB, 0xCDEF, 0xFEDC, 0xBA98, 0x7654, 0x3210, 0x0011, 0x2233, 0x4455, 0x6677, 0x8899, 0xAABB, 0xCCDD, 0xEEFF]
      [0x0F1E, 0x2D3C, 0x4B5A, 0x6978, 0x8796, 0xA5B4, 0xC3D2, 0xE1F0, 0xFFEE, 0xDDCC, 0xBBAA, 0x9988, 0x7766, 0x5544, 0x3322, 0x1100]
    = some (registerOf [],
      registerOf [], 0x0000) := by decide +kernel

/-- R128. -/
theorem test_one192 :
    resultOf 0x0041
      [0x0123, 0x4567, 0x89AB, 0xCDEF, 0xFEDC, 0xBA98, 0x7654, 0x3210, 0x0011, 0x2233, 0x4455, 0x6677, 0x8899, 0xAABB, 0xCCDD, 0xEEFF]
      [0x0F1E, 0x2D3C, 0x4B5A, 0x6978, 0x8796, 0xA5B4, 0xC3D2, 0xE1F0, 0xFFEE, 0xDDCC, 0xBBAA, 0x9988, 0x7766, 0x5544, 0x3322, 0x1100]
    = some (registerOf [],
      registerOf [0x0000, 0x0000, 0x0000, 0x0000, 0x0000, 0x0000, 0x0000, 0x0000, 0x0000, 0x0000, 0x0000, 0x0001], 0x0000) := by decide +kernel

/-- V-ADD-1.192. -/
theorem test_add192 :
    resultOf 0x0043
      [0x0123, 0x4567, 0x89AB, 0xCDEF, 0xFEDC, 0xBA98, 0x7654, 0x3210, 0x0011, 0x2233, 0x4455, 0x6677]
      [0x0F1E, 0x2D3C, 0x4B5A, 0x6978, 0x8796, 0xA5B4, 0xC3D2, 0xE1F0, 0xFFEE, 0xDDCC, 0xBBAA, 0x9988]
    = some (registerOf [],
      registerOf [0x0E3D, 0x685B, 0xC2F1, 0xA497, 0x794A, 0x1F2C, 0xB586, 0xD3E0, 0xFFFF, 0xFFFF, 0xFFFF, 0xFFFF], 0x0000) := by decide +kernel

/-- V-SUB: the same words as ADD. -/
theorem test_sub192 :
    resultOf 0x0044
      [0x0123, 0x4567, 0x89AB, 0xCDEF, 0xFEDC, 0xBA98, 0x7654, 0x3210, 0x0011, 0x2233, 0x4455, 0x6677]
      [0x0F1E, 0x2D3C, 0x4B5A, 0x6978, 0x8796, 0xA5B4, 0xC3D2, 0xE1F0, 0xFFEE, 0xDDCC, 0xBBAA, 0x9988]
    = some (registerOf [],
      registerOf [0x0E3D, 0x685B, 0xC2F1, 0xA497, 0x794A, 0x1F2C, 0xB586, 0xD3E0, 0xFFFF, 0xFFFF, 0xFFFF, 0xFFFF], 0x0000) := by decide +kernel

/-- R134: a limb at or above L does not count, the lowest limb does. -/
theorem test_iszero192 :
    resultOf 0x0047
      [0x0000, 0x0000, 0x0000, 0x0000, 0x0000, 0x0000, 0x0000, 0x0000, 0x0000, 0x0000, 0x0000, 0x0000, 0x0001, 0x0001, 0x0001, 0x0001]
      [0x0F1E, 0x2D3C, 0x4B5A, 0x6978, 0x8796, 0xA5B4, 0xC3D2, 0xE1F0, 0xFFEE, 0xDDCC, 0xBBAA, 0x9988, 0x7766, 0x5544, 0x3322, 0x1100]
    = some (registerOf [],
      registerOf [], 0x0002)
    ∧ resultOf 0x0047
      [0x0000, 0x0000, 0x0000, 0x0000, 0x0000, 0x0000, 0x0000, 0x0000, 0x0000, 0x0000, 0x0000, 0x0001]
      [0x0F1E, 0x2D3C, 0x4B5A, 0x6978, 0x8796, 0xA5B4, 0xC3D2, 0xE1F0, 0xFFEE, 0xDDCC, 0xBBAA, 0x9988, 0x7766, 0x5544, 0x3322, 0x1100]
    = some (registerOf [],
      registerOf [], 0x0000) := by decide +kernel

/-- R135: the 1 stands in limb L-1, not in limb 0. -/
theorem test_isone192 :
    resultOf 0x0048
      [0x0000, 0x0000, 0x0000, 0x0000, 0x0000, 0x0000, 0x0000, 0x0000, 0x0000, 0x0000, 0x0000, 0x0001, 0x0007, 0x0007, 0x0007, 0x0007]
      [0x0F1E, 0x2D3C, 0x4B5A, 0x6978, 0x8796, 0xA5B4, 0xC3D2, 0xE1F0, 0xFFEE, 0xDDCC, 0xBBAA, 0x9988, 0x7766, 0x5544, 0x3322, 0x1100]
    = some (registerOf [],
      registerOf [], 0x0002)
    ∧ resultOf 0x0048
      [0x0001]
      [0x0F1E, 0x2D3C, 0x4B5A, 0x6978, 0x8796, 0xA5B4, 0xC3D2, 0xE1F0, 0xFFEE, 0xDDCC, 0xBBAA, 0x9988, 0x7766, 0x5544, 0x3322, 0x1100]
    = some (registerOf [],
      registerOf [], 0x0000) := by decide +kernel

/-- R136: limbs at or above L are not compared, the last below L is. -/
theorem test_eq192 :
    resultOf 0x0049
      [0x0123, 0x4567, 0x89AB, 0xCDEF, 0xFEDC, 0xBA98, 0x7654, 0x3210, 0x0011, 0x2233, 0x4455, 0x6677, 0x0001, 0x0001, 0x0001, 0x0001]
      [0x0123, 0x4567, 0x89AB, 0xCDEF, 0xFEDC, 0xBA98, 0x7654, 0x3210, 0x0011, 0x2233, 0x4455, 0x6677, 0x0002, 0x0002, 0x0002, 0x0002]
    = some (registerOf [],
      registerOf [], 0x0002)
    ∧ resultOf 0x0049
      [0x0123, 0x4567, 0x89AB, 0xCDEF, 0xFEDC, 0xBA98, 0x7654, 0x3210, 0x0011, 0x2233, 0x4455, 0x0000]
      [0x0123, 0x4567, 0x89AB, 0xCDEF, 0xFEDC, 0xBA98, 0x7654, 0x3210, 0x0011, 0x2233, 0x4455, 0x0001]
    = some (registerOf [],
      registerOf [], 0x0000) := by decide +kernel

/-- R129: the first drawn word is limb 0, exactly L words leave the port. -/
theorem test_random192 :
    drawnBy 0x0042 (List.range 20) = some ((List.range 12).map (BitVec.ofNat 16) ++ List.replicate 4 0, 8, 17) := by decide +kernel

/-- V-INV-8.256: inv(ZERO) is None. -/
theorem test_inv256_zero :
    resultOf 0x0086
      []
      [0x0F1E, 0x2D3C, 0x4B5A, 0x6978, 0x8796, 0xA5B4, 0xC3D2, 0xE1F0, 0xFFEE, 0xDDCC, 0xBBAA, 0x9988, 0x7766, 0x5544, 0x3322, 0x1100]
    = some (registerOf [],
      registerOf [], 0x0001) := by decide +kernel

/-- R127, from registers that are not zero. -/
theorem test_zero256 :
    resultOf 0x0080
      [0x0123, 0x4567, 0x89AB, 0xCDEF, 0xFEDC, 0xBA98, 0x7654, 0x3210, 0x0011, 0x2233, 0x4455, 0x6677, 0x8899, 0xAABB, 0xCCDD, 0xEEFF]
      [0x0F1E, 0x2D3C, 0x4B5A, 0x6978, 0x8796, 0xA5B4, 0xC3D2, 0xE1F0, 0xFFEE, 0xDDCC, 0xBBAA, 0x9988, 0x7766, 0x5544, 0x3322, 0x1100]
    = some (registerOf [],
      registerOf [], 0x0000) := by decide +kernel

/-- R128. -/
theorem test_one256 :
    resultOf 0x0081
      [0x0123, 0x4567, 0x89AB, 0xCDEF, 0xFEDC, 0xBA98, 0x7654, 0x3210, 0x0011, 0x2233, 0x4455, 0x6677, 0x8899, 0xAABB, 0xCCDD, 0xEEFF]
      [0x0F1E, 0x2D3C, 0x4B5A, 0x6978, 0x8796, 0xA5B4, 0xC3D2, 0xE1F0, 0xFFEE, 0xDDCC, 0xBBAA, 0x9988, 0x7766, 0x5544, 0x3322, 0x1100]
    = some (registerOf [],
      registerOf [0x0000, 0x0000, 0x0000, 0x0000, 0x0000, 0x0000, 0x0000, 0x0000, 0x0000, 0x0000, 0x0000, 0x0000, 0x0000, 0x0000, 0x0000, 0x0001], 0x0000) := by decide +kernel

/-- V-ADD-1.256. -/
theorem test_add256 :
    resultOf 0x0083
      [0x0123, 0x4567, 0x89AB, 0xCDEF, 0xFEDC, 0xBA98, 0x7654, 0x3210, 0x0011, 0x2233, 0x4455, 0x6677, 0x8899, 0xAABB, 0xCCDD, 0xEEFF]
      [0x0F1E, 0x2D3C, 0x4B5A, 0x6978, 0x8796, 0xA5B4, 0xC3D2, 0xE1F0, 0xFFEE, 0xDDCC, 0xBBAA, 0x9988, 0x7766, 0x5544, 0x3322, 0x1100]
    = some (registerOf [],
      registerOf [0x0E3D, 0x685B, 0xC2F1, 0xA497, 0x794A, 0x1F2C, 0xB586, 0xD3E0, 0xFFFF, 0xFFFF, 0xFFFF, 0xFFFF, 0xFFFF, 0xFFFF, 0xFFFF, 0xFFFF], 0x0000) := by decide +kernel

/-- V-SUB: the same words as ADD. -/
theorem test_sub256 :
    resultOf 0x0084
      [0x0123, 0x4567, 0x89AB, 0xCDEF, 0xFEDC, 0xBA98, 0x7654, 0x3210, 0x0011, 0x2233, 0x4455, 0x6677, 0x8899, 0xAABB, 0xCCDD, 0xEEFF]
      [0x0F1E, 0x2D3C, 0x4B5A, 0x6978, 0x8796, 0xA5B4, 0xC3D2, 0xE1F0, 0xFFEE, 0xDDCC, 0xBBAA, 0x9988, 0x7766, 0x5544, 0x3322, 0x1100]
    = some (registerOf [],
      registerOf [0x0E3D, 0x685B, 0xC2F1, 0xA497, 0x794A, 0x1F2C, 0xB586, 0xD3E0, 0xFFFF, 0xFFFF, 0xFFFF, 0xFFFF, 0xFFFF, 0xFFFF, 0xFFFF, 0xFFFF], 0x0000) := by decide +kernel

/-- R134: a limb at or above L does not count, the lowest limb does. -/
theorem test_iszero256 :
    resultOf 0x0087
      [0x0000, 0x0000, 0x0000, 0x0000, 0x0000, 0x0000, 0x0000, 0x0000, 0x0000, 0x0000, 0x0000, 0x0000, 0x0000, 0x0000, 0x0000, 0x0000]
      [0x0F1E, 0x2D3C, 0x4B5A, 0x6978, 0x8796, 0xA5B4, 0xC3D2, 0xE1F0, 0xFFEE, 0xDDCC, 0xBBAA, 0x9988, 0x7766, 0x5544, 0x3322, 0x1100]
    = some (registerOf [],
      registerOf [], 0x0002)
    ∧ resultOf 0x0087
      [0x0000, 0x0000, 0x0000, 0x0000, 0x0000, 0x0000, 0x0000, 0x0000, 0x0000, 0x0000, 0x0000, 0x0000, 0x0000, 0x0000, 0x0000, 0x0001]
      [0x0F1E, 0x2D3C, 0x4B5A, 0x6978, 0x8796, 0xA5B4, 0xC3D2, 0xE1F0, 0xFFEE, 0xDDCC, 0xBBAA, 0x9988, 0x7766, 0x5544, 0x3322, 0x1100]
    = some (registerOf [],
      registerOf [], 0x0000) := by decide +kernel

/-- R135: the 1 stands in limb L-1, not in limb 0. -/
theorem test_isone256 :
    resultOf 0x0088
      [0x0000, 0x0000, 0x0000, 0x0000, 0x0000, 0x0000, 0x0000, 0x0000, 0x0000, 0x0000, 0x0000, 0x0000, 0x0000, 0x0000, 0x0000, 0x0001]
      [0x0F1E, 0x2D3C, 0x4B5A, 0x6978, 0x8796, 0xA5B4, 0xC3D2, 0xE1F0, 0xFFEE, 0xDDCC, 0xBBAA, 0x9988, 0x7766, 0x5544, 0x3322, 0x1100]
    = some (registerOf [],
      registerOf [], 0x0002)
    ∧ resultOf 0x0088
      [0x0001]
      [0x0F1E, 0x2D3C, 0x4B5A, 0x6978, 0x8796, 0xA5B4, 0xC3D2, 0xE1F0, 0xFFEE, 0xDDCC, 0xBBAA, 0x9988, 0x7766, 0x5544, 0x3322, 0x1100]
    = some (registerOf [],
      registerOf [], 0x0000) := by decide +kernel

/-- R136: limbs at or above L are not compared, the last below L is. -/
theorem test_eq256 :
    resultOf 0x0089
      [0x0123, 0x4567, 0x89AB, 0xCDEF, 0xFEDC, 0xBA98, 0x7654, 0x3210, 0x0011, 0x2233, 0x4455, 0x6677, 0x8899, 0xAABB, 0xCCDD, 0xEEFF]
      [0x0123, 0x4567, 0x89AB, 0xCDEF, 0xFEDC, 0xBA98, 0x7654, 0x3210, 0x0011, 0x2233, 0x4455, 0x6677, 0x8899, 0xAABB, 0xCCDD, 0xEEFF]
    = some (registerOf [],
      registerOf [], 0x0002)
    ∧ resultOf 0x0089
      [0x0123, 0x4567, 0x89AB, 0xCDEF, 0xFEDC, 0xBA98, 0x7654, 0x3210, 0x0011, 0x2233, 0x4455, 0x6677, 0x8899, 0xAABB, 0xCCDD, 0x0000]
      [0x0123, 0x4567, 0x89AB, 0xCDEF, 0xFEDC, 0xBA98, 0x7654, 0x3210, 0x0011, 0x2233, 0x4455, 0x6677, 0x8899, 0xAABB, 0xCCDD, 0x0001]
    = some (registerOf [],
      registerOf [], 0x0000) := by decide +kernel

/-- R129: the first drawn word is limb 0, exactly L words leave the port. -/
theorem test_random256 :
    drawnBy 0x0082 (List.range 20) = some ((List.range 16).map (BitVec.ofNat 16) ++ List.replicate 0 0, 4, 21) := by decide +kernel

/-- V-CLMUL-11. -/
theorem test_clmul :
    resultOf 0x000C
      [0xABCD, 0x0007]
      [0x1234, 0x0009]
    = some (registerOf [0x0BF6],
      registerOf [0x2044], 0x0000) := by decide +kernel

/-- V-CLMUL-4. -/
theorem test_clmul_all_ones :
    resultOf 0x000C
      [0xFFFF, 0x0007]
      [0xFFFF, 0x0009]
    = some (registerOf [0x5555],
      registerOf [0x5555], 0x0000) := by decide +kernel

/-- V-ILL-14: FSEL 11 with OP RANDOM. -/
theorem test_illegal :
    resultOf 0x00C2
      [0x0123, 0x4567, 0x89AB, 0xCDEF, 0xFEDC, 0xBA98, 0x7654, 0x3210, 0x0011, 0x2233, 0x4455, 0x6677, 0x8899, 0xAABB, 0xCCDD, 0xEEFF]
      [0x0F1E, 0x2D3C, 0x4B5A, 0x6978, 0x8796, 0xA5B4, 0xC3D2, 0xE1F0, 0xFFEE, 0xDDCC, 0xBBAA, 0x9988, 0x7766, 0x5544, 0x3322, 0x1100]
    = some (registerOf [],
      registerOf [], 0x0004) := by decide +kernel

/-- V-ILL-14: nothing is drawn. -/
theorem test_illegal_draws_nothing :
    drawnBy 0x00C2 (List.range 20) = some (List.replicate 16 0, 20, 5) := by decide +kernel

/-- V-WSHL-1, 2 and 4. -/
theorem test_wshl :
    wshl 0xABCD 0 = (0x0000, 0xABCD) ∧ wshl 0xABCD 16 = (0xABCD, 0x0000) ∧ wshl 0x8001 1 = (0x0001, 0x0002) := by decide +kernel

/-! ### Host accesses (R41, R43, R44, R71, R72) -/

/-- V-HOST-1 to 8: read-write, read-only, write-only and unmapped words. -/
theorem test_host_accesses :
    reads [.write 0x03 0xCDEF, .read 0x03, .write 0x1F 0x1234, .read 0x1F, .write 0x20 0xAAAA, .read 0x20,
      .write 0x3F 0xAAAA, .read 0x3F, .read 0x40, .write 0x41 0x0007, .read 0x41, .write 0x42 0xFFFF, .read 0x42,
      .write 0x7F 0xFFFF, .read 0x7F]
    = some [0xCDEF, 0x1234, 0, 0, 0, 0, 0, 0] := by decide +kernel

/-- The ends of the four register ranges (R41). -/
theorem test_read_boundaries :
    let s : State := { State.reset with
      a := registerOf [0xA0, 0, 0, 0, 0, 0, 0, 0, 0, 0, 0, 0, 0, 0, 0, 0xAF]
      b := registerOf [0xB0, 0, 0, 0, 0, 0, 0, 0, 0, 0, 0, 0, 0, 0, 0, 0xBF]
      rh := registerOf [0xC0, 0, 0, 0, 0, 0, 0, 0, 0, 0, 0, 0, 0, 0, 0, 0xCF]
      rl := registerOf [0xD0, 0, 0, 0, 0, 0, 0, 0, 0, 0, 0, 0, 0, 0, 0, 0xDF]
      status := { NONE := true, T := false, ILL := true } }
    s.regRead 0x00 = 0xA0 ∧ s.regRead 0x0F = 0xAF ∧ s.regRead 0x10 = 0xB0 ∧ s.regRead 0x1F = 0xBF
      ∧ s.regRead 0x20 = 0xC0 ∧ s.regRead 0x2F = 0xCF ∧ s.regRead 0x30 = 0xD0 ∧ s.regRead 0x3F = 0xDF
      ∧ s.regRead 0x40 = 0 ∧ s.regRead 0x41 = 5 ∧ s.regRead 0x42 = 0 ∧ s.regRead 0x7F = 0 := by decide +kernel

/-- V-HOST-9: reading STATUS does not clear it. -/
theorem test_status_read_twice :
    reads [.write 0x40 0x000D, .read 0x41, .read 0x41] = some [4, 4] := by decide +kernel

/-- R170, R34: an access while reset is asserted gets no answer, and the release clears A. -/
theorem test_reset :
    reads [.write 0x00 0x1111, .resetAssert, .read 0x00, .write 0x01 0x2222, .resetRelease, .read 0x00, .read 0x01]
    = some [0, 0] := by decide +kernel

/-- MVHA.128 copies RH[0..8) to A[0..8) word by word (R72). -/
theorem test_mvha :
    (next? (Sys2Proof.core.run 16
        { State.reset with rh := registerOf [1, 2, 3, 4, 5, 6, 7, 8, 9], events := (Statement.mvha .f128).expand })).map
      (fun t => t.a) = some (registerOf [1, 2, 3, 4, 5, 6, 7, 8]) := by decide +kernel

/-- LDA.128 writes w0 to address 0x00 first (R72). -/
theorem test_lda :
    (Statement.lda .f128 [10, 11, 12, 13, 14, 15, 16, 17]).expand
    = [.write 0x00 10, .write 0x01 11, .write 0x02 12, .write 0x03 13, .write 0x04 14, .write 0x05 15, .write 0x06 16,
      .write 0x07 17] := by decide +kernel

/-! ### Configuring an engine (R9, R29, U1) -/

/-- The default moduli of R9 are accepted, and the engine has them. -/
theorem test_witness_ConfigurationRefusesInvalidModuli :
    (configure (2 ^ 128 + 0x87) (2 ^ 192 + 0x87) (2 ^ 256 + 0x425)).toOption = some Moduli.default := by decide +kernel

/-- x^128 is reducible; 0x87 is not of degree 128; x^192 + x^2 is reducible. -/
theorem test_configure_refuses :
    configure (2 ^ 128) (2 ^ 192 + 0x87) (2 ^ 256 + 0x425) = .error (.reducible .f128)
    ∧ configure 0x87 (2 ^ 192 + 0x87) (2 ^ 256 + 0x425) = .error (.wrongDegree .f128)
    ∧ configure (2 ^ 128 + 0x87) (2 ^ 192 + 4) (2 ^ 256 + 0x425) = .error (.reducible .f192) := by decide +kernel

/-! ### A state and operands that meet the hypotheses of each obligation that has some -/

/-- After a command that is not legal. -/
def afterIllegal : State := State.reset.reservedCommand

theorem test_witness_ResetLeavesZero :
    let s : State := { dirty Reg.zero Reg.zero with resetIn := true, events := [.resetRelease, .read 0x00] }
    s.resetIn = true ∧ s.events = .resetRelease :: [.read 0x00] ∧ s.rl ≠ Reg.zero := by decide +kernel

theorem test_witness_NoAccessDuringReset :
    let s : State := { State.reset with resetIn := true, events := [.write 0x40 0x0001] }
    s.resetIn = true ∧ s.events = .write 0x40 0x0001 :: [] ∧ HostEvent.write 0x40 0x0001 ≠ .resetRelease
      ∧ HostEvent.write 0x40 0x0001 ≠ .resetAssert := by decide +kernel

theorem test_witness_ResetInputFollowsItsEvents :
    ({ State.reset with events := [.resetAssert] } : State).events = .resetAssert :: []
    ∧ ({ State.reset with events := [.resetRelease] } : State).resetIn = false
    ∧ ({ State.reset with events := [.resetRelease] } : State).events = .resetRelease :: [] := by decide +kernel

/-- Both forms of a write: from the host, and of the word read last. -/
theorem test_witness_StepRunsDecodedCommand :
    (∃ s : State, s.resetIn = false ∧ s.events = [.write 0x40 0x0005] ∧ Claims.WritesTo s (.write 0x40 0x0005) 0x40 0x0005
      ∧ decode 0x0005 = .ok .mul128)
    ∧ ∃ s : State, s.resetIn = false ∧ s.events = [.writeBack 0x40] ∧ Claims.WritesTo s (.writeBack 0x40) 0x40 0x000C
      ∧ decode 0x000C = .ok .clmul :=
  ⟨⟨{ State.reset with events := [.write 0x40 0x0005] }, rfl, rfl, .inl rfl, rfl⟩,
    ⟨{ State.reset with events := [.writeBack 0x40], answers := [0x000C] }, rfl, rfl, .inr ⟨rfl, rfl⟩, rfl⟩⟩

theorem test_witness_FetchedWordRuns :
    decodeTableWord 16 0x004A = some .wmul192 ∧ decodeTableWord 16 0x1000C = some .clmul := by decide +kernel

theorem test_witness_ReservedWordSetsIll :
    ∃ s : State, s.resetIn = false ∧ s.events = [.write 0x40 0x00C5]
      ∧ Claims.WritesTo s (.write 0x40 0x00C5) 0x40 0x00C5 ∧ ¬∃ i, decode 0x00C5 = .ok i :=
  ⟨{ State.reset with events := [.write 0x40 0x00C5] }, rfl, rfl, .inl rfl, by
    rintro ⟨i, h⟩; have h' : Except.error Illegal.reservedField = Except.ok i := h; cases h'⟩

theorem test_witness_IdleStepChangesNothing : State.reset.events = [] := rfl

theorem test_witness_ReadReturnsMappedWord :
    let s : State := { State.reset with events := [.read 0x2F] }
    s.resetIn = false ∧ s.events = .read 0x2F :: [] := by decide +kernel

/-- Every clause of the two statements on the address map, at both ends of its range. -/
theorem test_witness_address_ranges :
    (0x00 : Address).toNat ≤ 0x0F ∧ (0x0F : Address).toNat ≤ 0x0F
    ∧ (0x10 : Address).toNat = 0x10 ∧ (0x1F : Address).toNat = 0x1F
    ∧ (0x20 : Address).toNat = 0x20 ∧ (0x2F : Address).toNat = 0x2F
    ∧ (0x30 : Address).toNat = 0x30 ∧ (0x3F : Address).toNat = 0x3F
    ∧ (0x40 : Address).toNat = 0x40 ∧ (0x41 : Address).toNat = 0x41
    ∧ (0x42 : Address).toNat = 0x42 ∧ (0x7F : Address).toNat = 0x7F := by decide +kernel

/-- A write to A, to B, and one that is ignored, at the ends of their ranges. -/
theorem test_witness_WriteStoresOrIsIgnored :
    ∀ addr ∈ ([0x00, 0x0F, 0x10, 0x1F, 0x20, 0x3F, 0x41, 0x7F] : List Address), addr ≠ 0x40
      ∧ ∃ s : State, s.resetIn = false ∧ s.events = [.write addr 0x1234]
        ∧ Claims.WritesTo s (.write addr 0x1234) addr 0x1234 :=
  fun addr h => ⟨by revert addr; decide +kernel,
    { State.reset with events := [.write addr 0x1234] }, rfl, rfl, .inl rfl⟩

theorem test_witness_ReadAfterWrite :
    let s : State := { State.reset with events := [.write 0x1F 0x1234, .read 0x1F] }
    s.resetIn = false ∧ (0x1F : Address).toNat < 0x20 ∧ s.events = .write 0x1F 0x1234 :: .read 0x1F :: [] := by
  decide +kernel

/-- The invariant with a flag that is 1, and a step from there that answers a next state. -/
theorem test_witness_FlagsSoundKeptByEveryStep :
    afterIllegal.FlagsSound ∧ afterIllegal.status.ILL = true ∧ step afterIllegal = .next afterIllegal :=
  ⟨⟨⟨by decide, by decide⟩, fun _ => ⟨rfl, rfl⟩⟩, rfl, rfl⟩

/-- Commands that set NONE and T, and a word that does not decode. -/
theorem test_witness_flags_set :
    (∃ t, exec .inv192 State.reset = .next t ∧ t.status.NONE = true)
    ∧ (∃ t, exec .iszero256 State.reset = .next t ∧ t.status.T = true) ∧ ¬∃ i, decode 0x000F = .ok i :=
  ⟨⟨_, rfl, by decide +kernel⟩, ⟨_, rfl, by decide +kernel⟩, by
    rintro ⟨i, h⟩; have h' : Except.error Illegal.reservedOp = Except.ok i := h; cases h'⟩

/-- A word of A changed by a write, and one cleared by the release of reset. -/
theorem test_witness_OperandsChangeOnlyByHostOrReset :
    (let s : State := { State.reset with events := [.write 0x0F 0x0007] }
      ∃ t, step s = .next t ∧ (0x0F : Address).toNat < 0x20 ∧ t.regRead 0x0F ≠ s.regRead 0x0F)
    ∧ let s : State := { dirty Reg.zero (registerOf [9]) with resetIn := true, events := [.resetRelease] }
      ∃ t, step s = .next t ∧ (0x10 : Address).toNat < 0x20 ∧ t.regRead 0x10 ≠ s.regRead 0x10 :=
  ⟨⟨_, rfl, by decide, by decide +kernel⟩, ⟨_, rfl, by decide, by decide +kernel⟩⟩

/-- Results changed by a command, and cleared by the release of reset. -/
theorem test_witness_ResultsChangeOnlyByCommandOrReset :
    (let s : State := { dirty Reg.zero Reg.zero with events := [.write 0x40 0x0000] }
      ∃ t, step s = .next t ∧ (t.rh ≠ s.rh ∨ t.rl ≠ s.rl ∨ t.status ≠ s.status))
    ∧ let s : State := { dirty Reg.zero Reg.zero with resetIn := true, events := [.resetRelease] }
      ∃ t, step s = .next t ∧ (t.rh ≠ s.rh ∨ t.rl ≠ s.rl ∨ t.status ≠ s.status) :=
  ⟨⟨_, rfl, .inl (by decide +kernel)⟩, ⟨_, rfl, .inl (by decide +kernel)⟩⟩

/-- A step and a command with a next state. -/
theorem test_witness_ModuliNeverChange :
    step State.reset = .next State.reset ∧ ∃ t, exec .one128 State.reset = .next t := ⟨rfl, _, rfl⟩

theorem test_witness_ValueBitsAreLimbBits :
    0 < 16 * FieldSel.f128.limbs ∧ 127 < 16 * FieldSel.f128.limbs ∧ 2 ^ 128 - 1 < 2 ^ (16 * FieldSel.f128.limbs) := by
  decide +kernel

/-- An operand of INV.f that is not zero, in each field. -/
theorem test_witness_operand_nonzero (f : FieldSel) :
    let s : State := { State.reset with a := registerOf [1], b := registerOf [2] }
    ¬(∀ k < f.limbs, s.a.limb k = 0) ∧ ¬Claims.IsZero f.limbs s := by
  have h : ¬Claims.IsZero f.limbs { State.reset with a := registerOf [1], b := registerOf [2] } := fun h =>
    absurd (h 0 (by cases f <;> decide)) (by decide +kernel)
  exact ⟨h, h⟩

/-- INV.f of zero, and DIVREM.f of a small dividend: A is zero below L. -/
theorem test_witness_operand_zero (f : FieldSel) :
    (∀ k < f.limbs, State.reset.a.limb k = 0) ∧ Claims.IsZero f.limbs State.reset :=
  have h : ∀ k < f.limbs, State.reset.a.limb k = 0 := fun k _ => Laws.limb_zero k
  ⟨h, h⟩

/-- INV.128 of ONE: a number v below 2^m and a product q that meet the premises of uniqueness, v = 1 and q = 1. -/
theorem test_witness_InvIsTheInverse :
    (1 : Nat) < 2 ^ FieldSel.f128.degree ∧ IsProduct 1 1 1 ∧ Claims.Congruent (2 ^ 128 + 0x87) 1 1 :=
  ⟨by decide +kernel, (Laws.isProduct_iff 1 1 1).2 (by simp), 0, (Laws.isProduct_iff _ _ _).2 (by simp)⟩

/-- DIVREM.128 of the dividend 1: quotient 0 and remainder 1 meet the premises of uniqueness. -/
theorem test_witness_DivremSplitsTheDividend :
    (1 : Nat) < 2 ^ FieldSel.f128.degree ∧ IsProduct ((0 * 2 ^ FieldSel.f128.degree + 1) ^^^ 1) 0 (2 ^ 128 + 0x87) :=
  ⟨by decide +kernel, (Laws.isProduct_iff _ _ _).2 (by simp)⟩

theorem test_witness_RandomContinuesTheStream :
    (Instr.random128, FieldSel.f128) ∈ Claims.randomCommands ∧ (Instr.random256, FieldSel.f256) ∈ Claims.randomCommands := by
  decide

theorem test_witness_InvIsAnInvolution :
    (Instr.inv192, FieldSel.f192) ∈ [(Instr.inv128, FieldSel.f128), (.inv192, .f192), (.inv256, .f256)] := by decide

theorem test_witness_WideningShiftLosesNoBit : 0 ≤ 16 ∧ 16 ≤ 16 := by decide

theorem test_witness_LoopBoundsAreEnough :
    (11 : Nat) ≠ 0 ∧ (11 : Nat).log2 = 3 ∧ 63 < 2 ^ (2 * 3) ∧ 7 < 2 ^ 3 := by decide +kernel

/-- Two states that agree below L and nowhere else. -/
theorem test_witness_LimbsAboveLAreNotRead :
    let s : State := { State.reset with a := registerOf [1, 0, 0, 0, 0, 0, 0, 0, 7], drawn := 5 }
    let s' : State := dirty (registerOf [1]) (registerOf [0, 0, 0, 0, 0, 0, 0, 0, 9])
    (Instr.add128, FieldSel.f128) ∈ Claims.fieldCommands ∧ s.mods = s'.mods ∧ s.portWords = s'.portWords
      ∧ s.drawn = s'.drawn
      ∧ (∀ k < FieldSel.f128.limbs, s.a.limb k = s'.a.limb k ∧ s.b.limb k = s'.b.limb k)
      ∧ s.a ≠ s'.a ∧ s.b ≠ s'.b ∧ s.rl ≠ s'.rl := by decide +kernel

theorem test_witness_RepeatedCommandGivesTheSame :
    Instr.mul128 ≠ .random128 ∧ Instr.mul128 ≠ .random192 ∧ Instr.mul128 ≠ .random256 := by decide

theorem test_witness_MulIsWmulThenDivrem :
    (Instr.mul256, Instr.wmul256, Instr.divrem256, FieldSel.f256) ∈
      [(Instr.mul128, Instr.wmul128, Instr.divrem128, FieldSel.f128), (.mul192, .wmul192, .divrem192, .f192),
        (.mul256, .wmul256, .divrem256, .f256)] := by decide

theorem test_witness_AdditionIsAGroup :
    (Instr.add128, Instr.sub128, FieldSel.f128) ∈
      [(Instr.add128, Instr.sub128, FieldSel.f128), (.add192, .sub192, .f192), (.add256, .sub256, .f256)] := by decide

/-- ONE_L in the lowest-degree limb, with other words above L. -/
theorem test_witness_MultiplicationObeysTheFieldLaws :
    (Instr.mul128, Instr.add128, Instr.inv128, FieldSel.f128) ∈
      [(Instr.mul128, Instr.add128, Instr.inv128, FieldSel.f128), (.mul192, .add192, .inv192, .f192),
        (.mul256, .add256, .inv256, .f256)]
    ∧ (registerOf [0, 0, 0, 0, 0, 0, 0, 1, 7]).poly FieldSel.f128.limbs = Poly.one FieldSel.f128.limbs
    ∧ (registerOf [1]).poly FieldSel.f128.limbs ≠ Poly.zero FieldSel.f128.limbs := by decide +kernel

theorem test_witness_MulWithZeroIsZero :
    (Instr.mul192, FieldSel.f192) ∈ [(Instr.mul128, FieldSel.f128), (.mul192, .f192), (.mul256, .f256)]
    ∧ (registerOf [0, 0, 0, 0, 0, 0, 0, 0, 0, 0, 0, 0, 7]).poly FieldSel.f192.limbs = Poly.zero FieldSel.f192.limbs := by
  decide +kernel

theorem test_witness_DivremOfSmallDividend :
    (Instr.divrem256, FieldSel.f256) ∈ [(Instr.divrem128, FieldSel.f128), (.divrem192, .f192), (.divrem256, .f256)] := by
  decide

theorem test_witness_EqIsAddGivesZero :
    (Instr.eq192, Instr.add192) ∈ [(Instr.eq128, Instr.add128), (.eq192, .add192), (.eq256, .add256)] := by decide

theorem test_witness_CopiesMoveResultsToOperands (f : FieldSel) :
    (∃ s : State, s.resetIn = false ∧ s.events = (Statement.mvla f).expand ++ [.read 0x00])
    ∧ (∃ s : State, s.resetIn = false ∧ s.events = (Statement.mvlb f).expand ++ [.read 0x00])
    ∧ ∃ s : State, s.resetIn = false ∧ s.events = (Statement.mvha f).expand ++ [.read 0x00] :=
  ⟨⟨{ State.reset with events := _ }, rfl, rfl⟩, ⟨{ State.reset with events := _ }, rfl, rfl⟩,
    ⟨{ State.reset with events := _ }, rfl, rfl⟩⟩

end Sys2Proof.Tests
end

section
/-! The two statements on scope: the values of limb polynomials (R12) and the configurations an engine accepts (R9, R29). -/

namespace Sys2Proof.Proofs

open Sys2Proof Sys2Proof.Machine Sys2Proof.Laws

/-! ### The value of a polynomial of L limbs, by bits and by limbs -/

/-- limbs_L, one limb at a time (R12). -/
@[simp] theorem toNat_ofNat_getElem {L : Nat} (v : Nat) {k : Nat} (hk : k < L) :
    (Poly.ofNat L v)[k].toNat = (v >>> (16 * (L - 1 - k))) % 2 ^ 16 := by
  simp [Poly.ofNat]

/-- Bit j of limb k is the bit of val_L with weight 16·(L−1−k) + j (R12). -/
theorem getLsbD_limb_eq_testBit_val {L : Nat} (p : Poly L) {k j : Nat} (hk : k < L) (hj : j < 16) :
    p[k].getLsbD j = p.val.testBit (16 * (L - 1 - k) + j) := by
  have hlimb : p[k].toNat = (p.val >>> (16 * (L - 1 - k))) % 2 ^ 16 := by
    rw [← toNat_ofNat_getElem p.val hk, ofNat_val]
  rw [BitVec.getLsbD, hlimb, Nat.testBit_mod_two_pow, Nat.testBit_shiftRight]
  simp [hj]

/-- Bit d of val_L is bit d mod 16 of limb L−1−⌊d/16⌋ (R12). -/
theorem testBit_val {L : Nat} (p : Poly L) {d : Nat} (hd : d < 16 * L) :
    p.val.testBit d = ((p[L - 1 - d / 16]?).getD 0).getLsbD (d % 16) := by
  have hk : L - 1 - d / 16 < L := by omega
  have hweight : 16 * (L - 1 - (L - 1 - d / 16)) + d % 16 = d := by omega
  rw [Vector.getElem?_eq_getElem hk, Option.getD_some, getLsbD_limb_eq_testBit_val p hk (Nat.mod_lt d (by decide)),
    hweight]

theorem listVal_eq_sum (l : List Word) :
    listVal l = ((List.finRange l.length).map fun k => l[k].toNat * 2 ^ (16 * (l.length - 1 - k.1))).sum := by
  induction l with
  | nil => rfl
  | cons w l ih =>
    have hweight : ∀ k : Fin l.length, l.length - (k.1 + 1) = l.length - 1 - k.1 := fun k => by omega
    rw [listVal_cons, ih]
    simp [List.finRange_succ, Function.comp_def, hweight]

/-- val_L as the sum of R12. -/
theorem val_eq_sum {L : Nat} (p : Poly L) :
    p.val = ((List.finRange L).map fun k => p[k].toNat * 2 ^ (16 * (L - 1 - k.1))).sum := by
  obtain ⟨⟨l⟩, rfl⟩ := p
  exact listVal_eq_sum l

/-- Settles O25: each limb is cut out of val_L by limbs_L, so its bits are bits of val_L. -/
theorem valueBitsAreLimbBits : Obligations.ValueBitsAreLimbBits := by
  intro f p
  exact ⟨fun _ => testBit_val p, val_lt p, val_eq_sum p, ofNat_val p,
    fun v hv => ⟨val_ofNat hv, fun k => toNat_ofNat_getElem v k.isLt⟩⟩

/-! ### The configurations that are accepted -/

/-- A number of degree m is x^m and its terms below x^m, which is all that `Moduli` keeps of a modulus (R30). -/
theorem two_pow_add_ofNat_of_log2_eq {m n : Nat} (hm : m ≠ 0) (h : n.log2 = m) :
    2 ^ m + (BitVec.ofNat m n).toNat = n := by
  have hn : n ≠ 0 := by rintro rfl; exact hm (h.symm.trans Nat.log2_zero)
  obtain ⟨hlo, hhi⟩ := (Nat.log2_eq_iff hn).1 h
  rw [BitVec.toNat_ofNat, Nat.mod_eq_sub_mod hlo, Nat.mod_eq_of_lt (by omega)]
  omega

/-- What `configure` answers has the moduli it was given (R9). -/
theorem modulus_of_configure_ok {mod128 mod192 mod256 : Nat} {c : Moduli} (h : configure mod128 mod192 mod256 = .ok c) :
    c.modulus .f128 = mod128 ∧ c.modulus .f192 = mod192 ∧ c.modulus .f256 = mod256 := by
  unfold configure at h
  split_ifs at h with d128 d192 d256
  cases h
  exact ⟨two_pow_add_ofNat_of_log2_eq (by decide) (not_not.1 d128),
    two_pow_add_ofNat_of_log2_eq (by decide) (not_not.1 d192),
    two_pow_add_ofNat_of_log2_eq (by decide) (not_not.1 d256)⟩

/-- Moduli of their degrees that are irreducible pass every test of `configure` (R29). -/
theorem exists_configure_ok {mod128 mod192 mod256 : Nat}
    (d128 : mod128.log2 = 128) (i128 : Gf2Irreducible mod128) (d192 : mod192.log2 = 192) (i192 : Gf2Irreducible mod192)
    (d256 : mod256.log2 = 256) (i256 : Gf2Irreducible mod256) : ∃ c, configure mod128 mod192 mod256 = .ok c := by
  have t128 : irreducibleTest 128 [2] (BitVec.ofNat 128 mod128).toNat = true := by
    rwa [irreducibleTest128_iff (BitVec.isLt _), two_pow_add_ofNat_of_log2_eq (by decide) d128]
  have t192 : irreducibleTest 192 [2, 3] (BitVec.ofNat 192 mod192).toNat = true := by
    rwa [irreducibleTest192_iff (BitVec.isLt _), two_pow_add_ofNat_of_log2_eq (by decide) d192]
  have t256 : irreducibleTest 256 [2] (BitVec.ofNat 256 mod256).toNat = true := by
    rwa [irreducibleTest256_iff (BitVec.isLt _), two_pow_add_ofNat_of_log2_eq (by decide) d256]
  unfold configure
  rw [if_neg (not_not.2 d128), if_neg (not_not.2 d192), if_neg (not_not.2 d256), dif_pos t128, dif_pos t192, dif_pos t256]
  exact ⟨_, rfl⟩

/-- Settles O56: an answer has the moduli given, and every `Moduli` is valid; valid moduli pass Rabin's test (the test is
the model's choice, log 2). -/
theorem configurationRefusesInvalidModuli : Obligations.ConfigurationRefusesInvalidModuli := by
  intro mod128 mod192 mod256
  refine ⟨⟨?_, ?_⟩, fun c h => ⟨rfl, modulus_of_configure_ok h⟩⟩
  · rintro ⟨c, h⟩
    obtain ⟨rfl, rfl, rfl⟩ := modulus_of_configure_ok h
    exact ⟨modulus_valid c .f128, modulus_valid c .f192, modulus_valid c .f256⟩
  · rintro ⟨⟨d128, i128⟩, ⟨d192, i192⟩, d256, i256⟩
    exact exists_configure_ok d128 i128 d192 i192 d256 i256

end Sys2Proof.Proofs
end

section
/-! The architectural state: what a step writes and what it leaves alone (10_state.md; R22, R29, R34), the moduli as two
halves (R30), and what a command reads (R23, R28). -/

namespace Sys2Proof.Proofs

open Sys2Proof Sys2Proof.Machine Sys2Proof.Laws

/-! ### What a step and a write can do -/

/-- With an event listed, a step performs it (R18). -/
theorem step_of_events {s : State} {e : HostEvent} {rest : List HostEvent} (h : s.events = e :: rest) :
    step s = State.perform { s with events := rest } e := by
  rw [step, State.advance, h]

/-- Outside reset a step on either form of write is a RegWrite (R44, R72). -/
theorem step_of_writesTo {s : State} {e : HostEvent} {rest : List HostEvent} {addr : Address} {v : Word}
    (hr : s.resetIn = false) (he : s.events = e :: rest) (hw : Claims.WritesTo s e addr v) :
    step s = State.regWrite { s with events := rest } addr v := by
  rw [step_of_events he]
  obtain rfl | ⟨rfl, rfl⟩ := hw <;> simp [State.perform, hr, State.lastAnswer]

/-- A write of a legal word to CMD is exec of its command (R25, R64). -/
theorem regWrite_cmd_of_decode {s : State} {c : Word} {i : Instr} (h : decode c = .ok i) :
    s.regWrite 0x40 c = exec i s := by
  rw [State.regWrite, if_pos (show (0x40 : Address) = cmdAddress from rfl), State.command, h]

/-- What a write leaves: outside CMD that of a register write, at CMD words drawn and results written (R22, R44). -/
theorem regWrite_next_cases {s t : State} {addr : Address} {v : Word} (h : s.regWrite addr v = .next t) :
    (addr ≠ 0x40 ∧ t = s.regStore addr v)
      ∨ (addr = 0x40 ∧ ∃ n rh rl st, t = (State.afterDraws n s).writeResults rh rl st) := by
  by_cases haddr : addr = cmdAddress
  · refine .inr ⟨haddr, ?_⟩
    rw [State.regWrite, if_pos haddr] at h
    obtain ⟨i, -, hi⟩ | ⟨err, -, herr⟩ := command_cases s v
    · obtain ⟨rh, rl, st, hexec⟩ := exec_writes i s
      cases h.symm.trans (hi.trans hexec)
      exact ⟨_, rh, rl, st, rfl⟩
    · cases h.symm.trans herr
      exact ⟨0, _, _, _, rfl⟩
  · rw [State.regWrite, if_neg haddr] at h
    cases h
    exact .inl ⟨haddr, rfl⟩

/-- What a step leaves: the registers as they were (no event, a read, an access during reset, a change of the reset
input), or those of reset released (R170), or those of a write (R44). -/
theorem step_next_cases {s t : State} (h : step s = .next t) :
    (∃ resetIn events answers, t = { s with resetIn := resetIn, events := events, answers := answers })
      ∨ (∃ rest, s.resetIn = true ∧ s.events = .resetRelease :: rest
          ∧ t = State.releaseReset { s with events := rest })
      ∨ ∃ e rest addr v, s.resetIn = false ∧ s.events = e :: rest ∧ Claims.WritesTo s e addr v
          ∧ State.regWrite { s with events := rest } addr v = .next t := by
  obtain ⟨-, hidle⟩ | ⟨e, rest, he, hperform⟩ := step_cases s
  · cases hidle.symm.trans h
    exact .inl ⟨_, _, _, rfl⟩
  cases hr : s.resetIn with
  | true =>
    cases e with
    | resetRelease =>
      simp only [hperform, State.perform, hr, if_true] at h
      cases h
      exact .inr (.inl ⟨rest, rfl, he, rfl⟩)
    | _ =>
      simp only [hperform, State.perform, hr, if_true] at h
      cases h
      exact .inl ⟨_, _, _, rfl⟩
  | false =>
    cases e with
    | write addr v =>
      have hw : Claims.WritesTo s (.write addr v) addr v := .inl rfl
      exact .inr (.inr ⟨_, rest, addr, v, rfl, he, hw, by rw [← hr, ← step_of_writesTo hr he hw, h]⟩)
    | writeBack addr =>
      have hw : Claims.WritesTo s (.writeBack addr) addr s.lastAnswer := .inr ⟨rfl, rfl⟩
      exact .inr (.inr ⟨_, rest, addr, _, rfl, he, hw, by rw [← hr, ← step_of_writesTo hr he hw, h]⟩)
    | _ =>
      simp only [hperform, State.perform, hr, Bool.false_eq_true, if_false] at h
      cases h
      exact .inl ⟨_, _, _, rfl⟩

/-! ### The words of A and B -/

/-- Below 0x20 RegRead returns a word of A or B (R43). -/
theorem regRead_operand (s : State) {addr : Address} (h : addr.toNat < 0x20) :
    s.regRead addr = if addr.toNat ≤ 0x0F then s.a.limb addr.toNat else s.b.limb (addr.toNat - 0x10) := by
  rw [State.regRead, if_pos (show addr.toNat ≤ 0x1F by omega)]

theorem regRead_eq_of_operands_eq {s t : State} {addr : Address} (h : addr.toNat < 0x20) (ha : t.a = s.a)
    (hb : t.b = s.b) : t.regRead addr = s.regRead addr := by
  rw [regRead_operand t h, regRead_operand s h, ha, hb]

/-- A register write is seen at its own address and at no other word of A or B (R44, R46). -/
theorem regRead_regStore (s : State) {addr : Address} (target : Address) (v : Word) (h : addr.toNat < 0x20) :
    (s.regStore target v).regRead addr = if addr = target then v else s.regRead addr := by
  rw [regRead_operand _ h, regRead_operand s h]
  simp only [← BitVec.toNat_inj (x := addr)]
  obtain ⟨htarget, hstore⟩ | ⟨hlo, hhi, hstore⟩ | ⟨htarget, hstore⟩ := regStore_cases s target v <;> rw [hstore]
  · simp only [limb_setLimb]
    by_cases haddr : addr.toNat = target.toNat
    · simp [haddr, htarget, show target.toNat < 16 by omega]
    · simp [haddr]
  · simp only [limb_setLimb]
    by_cases haddr : addr.toNat = target.toNat
    · simp [haddr, show ¬target.toNat ≤ 15 by omega, show target.toNat - 16 < 16 by omega]
    · rw [if_neg haddr]
      split
      · rfl
      · rw [if_neg (by omega)]
  · rw [if_neg (show ¬addr.toNat = target.toNat by omega)]

/-- The state after n draws differs from s in the port's words and their count alone (R31). -/
theorem afterDraws_eq (n : Nat) (s : State) :
    State.afterDraws n s = { s with portWords := s.portWords.drop n, drawn := s.drawn + n } := by
  induction n generalizing s with
  | zero => rfl
  | succ n ih => simp [State.afterDraws, ih, State.afterDraw, Nat.add_comm, Nat.add_left_comm]

/-- Settles O21: of what a step can do, only a write to the word's own address and the release of reset change it. -/
theorem operandsChangeOnlyByHostOrReset : Obligations.OperandsChangeOnlyByHostOrReset := by
  refine ⟨fun s t addr h haddr hne => ?_, fun i s => ?_⟩
  · obtain ⟨_, _, _, rfl⟩ | ⟨rest, hr, he, -⟩ | ⟨e, rest, target, v, hr, he, hw, hwrite⟩ := step_next_cases h
    · exact absurd (regRead_eq_of_operands_eq haddr rfl rfl) hne
    · exact ⟨_, rest, he, .inr ⟨hr, rfl⟩⟩
    · refine ⟨e, rest, he, .inl ⟨hr, ?_⟩⟩
      obtain ⟨-, rfl⟩ | ⟨-, n, _, _, _, rfl⟩ := regWrite_next_cases hwrite
      · rw [regRead_regStore _ target v haddr] at hne ⊢
        split at hne
        case isTrue htarget => rwa [if_pos htarget, htarget]
        case isFalse => exact absurd rfl hne
      · exact absurd (regRead_eq_of_operands_eq haddr (by simp) (by simp)) hne
  · obtain ⟨rh, rl, st, h⟩ := exec_writes i s
    exact ⟨_, h, by rw [afterDraws_eq]; rfl⟩

/-- Settles O17: a command draws words and writes results, and nothing else. -/
theorem commandsWriteOnlyResults : Obligations.CommandsWriteOnlyResults := by
  intro i s
  obtain ⟨rh, rl, st, h⟩ := exec_writes i s
  have ha : ((State.afterDraws (drawCount i) s).writeResults rh rl st).a = s.a := by simp
  have hb : ((State.afterDraws (drawCount i) s).writeResults rh rl st).b = s.b := by simp
  exact ⟨_, h, ha, hb, by simp, by simp, by simp, by simp, fun _ haddr => regRead_eq_of_operands_eq haddr ha hb⟩

/-! ### The moduli -/

@[simp] theorem regStore_mods (s : State) (addr : Address) (v : Word) : (s.regStore addr v).mods = s.mods := by
  obtain ⟨-, h⟩ | ⟨-, -, h⟩ | ⟨-, h⟩ := regStore_cases s addr v <;> rw [h]

theorem step_mods {s t : State} (h : step s = .next t) : t.mods = s.mods := by
  obtain ⟨_, _, _, rfl⟩ | ⟨_, -, -, rfl⟩ | ⟨_, _, _, _, -, -, -, hwrite⟩ := step_next_cases h
  · rfl
  · rfl
  · obtain ⟨-, rfl⟩ | ⟨-, _, _, _, _, rfl⟩ := regWrite_next_cases hwrite <;> simp

theorem exec_mods {i : Instr} {s t : State} (h : exec i s = .next t) : t.mods = s.mods := by
  obtain ⟨_, _, _, hexec⟩ := exec_writes i s
  cases h.symm.trans hexec
  simp

/-- Settles O23: nothing a step or a command writes is a modulus, and the type of the moduli makes them valid (log 2). -/
theorem moduliNeverChange : Obligations.ModuliNeverChange :=
  ⟨fun _ _ => step_mods, fun _ _ _ => exec_mods, fun _ _ _ => rfl, fun s => modulus_valid s.mods⟩

/-- A modulus of degree m is 2^m and a low half below 2^m (R30). -/
theorem modulus_bounds (c : Moduli) (f : FieldSel) : 2 ^ f.degree ≤ c.modulus f ∧ c.modulus f < 2 * 2 ^ f.degree := by
  have h := (Nat.log2_eq_iff (modulus_ne_zero c f)).1 (log2_modulus c f)
  rwa [Nat.pow_succ'] at h

/-- Settles O24: ONE_L has the value 1, so as the high half it adds 2^m to the low half. -/
theorem modulusStandsInTwoHalves : Obligations.ModulusStandsInTwoHalves := by
  intro c f
  obtain ⟨hlo, hhi⟩ := modulus_bounds c f
  have hlow : c.modulus f - 2 ^ f.degree < 2 ^ (16 * f.limbs) := by
    rw [← FieldSel.degree]; omega
  refine ⟨?_, by rw [deg_of_ne_zero (modulus_ne_zero c f), log2_modulus]⟩
  rw [Poly.wideVal, val_one (limbs_pos f), val_ofNat hlow, ← FieldSel.degree]
  omega

/-! ### What a command reads -/

/-- The inputs of a command in the field f (R23, R28, R31): the moduli, the first L limbs of A and B, the port. -/
structure SameInputs (f : FieldSel) (s s' : State) : Prop where
  mods : s.mods = s'.mods
  portWords : s.portWords = s'.portWords
  drawn : s.drawn = s'.drawn
  a : s.a.poly f.limbs = s'.a.poly f.limbs
  b : s.b.poly f.limbs = s'.b.poly f.limbs

/-- The words to come are those of the port and the count of draws, whatever else a state holds (R31). -/
theorem SameInputs.drawWords {f : FieldSel} {s s' : State} (h : SameInputs f s s') (n : Nat) :
    State.drawWords n s = State.drawWords n s' := by
  refine List.ext_getElem (by simp) fun k hk _ => ?_
  have hkn : k < n := by simpa using hk
  rw [drawWords_getElem n s k hkn, drawWords_getElem n s' k hkn, nextWord_afterDraws, nextWord_afterDraws, h.portWords,
    h.drawn]

/-- From s and s' the command draws as many words and writes the same results. -/
def WritesSame (command : State → Host.Outcome State Fault Refusal) (s s' : State) : Prop :=
  ∃ n rh rl st, command s = .next ((State.afterDraws n s).writeResults rh rl st)
    ∧ command s' = .next ((State.afterDraws n s').writeResults rh rl st)

section
variable {f : FieldSel} {s s' : State}

theorem writesSame_zero : WritesSame (fun s => .next (zeroCommand f s)) s s' := ⟨0, _, _, _, rfl, rfl⟩

theorem writesSame_one : WritesSame (fun s => .next (oneCommand f s)) s s' := ⟨0, _, _, _, rfl, rfl⟩

theorem SameInputs.writesSame_random (h : SameInputs f s s') : WritesSame (fun s => .next (randomCommand f s)) s s' :=
  ⟨f.limbs, _, _, _, rfl, by simp only [randomCommand, h.drawWords]; rfl⟩

theorem SameInputs.writesSame_add (h : SameInputs f s s') : WritesSame (fun s => .next (addCommand f s)) s s' :=
  ⟨0, _, _, _, rfl, by simp only [addCommand, h.a, h.b]; rfl⟩

theorem SameInputs.writesSame_mul (h : SameInputs f s s') : WritesSame (fun s => .next (mulCommand f s)) s s' :=
  ⟨0, _, _, _, rfl, by simp only [mulCommand, h.a, h.b, h.mods]; rfl⟩

theorem SameInputs.writesSame_inv (h : SameInputs f s s') : WritesSame (fun s => .next (invCommand f s)) s s' := by
  simp only [WritesSame, invCommand, h.a, h.mods]
  split
  · exact ⟨0, _, _, _, rfl, rfl⟩
  · exact ⟨0, _, _, _, rfl, rfl⟩

theorem SameInputs.writesSame_iszero (h : SameInputs f s s') : WritesSame (fun s => .next (iszeroCommand f s)) s s' :=
  ⟨0, _, _, _, rfl, by simp only [iszeroCommand, h.a]; rfl⟩

theorem SameInputs.writesSame_isone (h : SameInputs f s s') : WritesSame (fun s => .next (isoneCommand f s)) s s' :=
  ⟨0, _, _, _, rfl, by simp only [isoneCommand, h.a]; rfl⟩

theorem SameInputs.writesSame_eq (h : SameInputs f s s') : WritesSame (fun s => .next (eqCommand f s)) s s' :=
  ⟨0, _, _, _, rfl, by simp only [eqCommand, h.a, h.b]; rfl⟩

theorem SameInputs.writesSame_wmul (h : SameInputs f s s') : WritesSame (fun s => .next (wmulCommand f s)) s s' :=
  ⟨0, _, _, _, rfl, by simp only [wmulCommand, h.a, h.b]; rfl⟩

theorem SameInputs.writesSame_divrem (h : SameInputs f s s') : WritesSame (fun s => .next (divremCommand f s)) s s' :=
  ⟨0, _, _, _, rfl, by simp only [divremCommand, h.a, h.b, h.mods]; rfl⟩

end

/-- A field command reads the inputs of its field and nothing else (R23, R28), row by row of R61. -/
theorem SameInputs.writesSame_exec {s s' : State} :
    ∀ p ∈ Claims.fieldCommands, SameInputs p.2 s s' → WritesSame (exec p.1) s s' := by
  simp only [Claims.fieldCommands, List.forall_mem_cons]
  exact ⟨fun _ => writesSame_zero, fun _ => writesSame_zero, fun _ => writesSame_zero,
    fun _ => writesSame_one, fun _ => writesSame_one, fun _ => writesSame_one,
    writesSame_random, writesSame_random, writesSame_random,
    writesSame_add, writesSame_add, writesSame_add,
    writesSame_add, writesSame_add, writesSame_add,
    writesSame_mul, writesSame_mul, writesSame_mul,
    writesSame_inv, writesSame_inv, writesSame_inv,
    writesSame_iszero, writesSame_iszero, writesSame_iszero,
    writesSame_isone, writesSame_isone, writesSame_isone,
    writesSame_eq, writesSame_eq, writesSame_eq,
    writesSame_wmul, writesSame_wmul, writesSame_wmul,
    writesSame_divrem, writesSame_divrem, writesSame_divrem, nofun⟩

/-- Settles O46: polynomials of L limbs that agree in every limb are equal, so both states give the command the same
inputs. -/
theorem limbsAboveLAreNotRead : Obligations.LimbsAboveLAreNotRead := by
  intro i f hmem s s' hmods hport hdrawn hlimbs
  have hinputs : SameInputs f s s' :=
    { mods := hmods, portWords := hport, drawn := hdrawn
      a := Vector.ext fun k hk => by simpa using (hlimbs k hk).1
      b := Vector.ext fun k hk => by simpa using (hlimbs k hk).2 }
  obtain ⟨n, rh, rl, st, h, h'⟩ := hinputs.writesSame_exec _ hmem
  exact ⟨_, _, h, h', rfl, rfl, rfl, by simp [hport], by simp [hdrawn]⟩

/-- CLMUL is the one command without a field (R61). -/
theorem eq_clmul_or_mem_fieldCommands (i : Instr) : i = .clmul ∨ ∃ f, (i, f) ∈ Claims.fieldCommands := by
  cases i
  case clmul => exact .inl rfl
  all_goals exact .inr (by simp [Claims.fieldCommands])

/-- Settles O47: RH, RL and STATUS are no inputs of a command, and the results it writes replace all three. -/
theorem resultsAreNotOperands : Obligations.ResultsAreNotOperands := by
  intro i s rh rl st
  obtain rfl | ⟨f, hmem⟩ := eq_clmul_or_mem_fieldCommands i
  · rfl
  · have hinputs : SameInputs f { s with rh := rh, rl := rl, status := st } s := ⟨rfl, rfl, rfl, rfl, rfl⟩
    obtain ⟨n, rh', rl', st', h, h'⟩ := hinputs.writesSame_exec _ hmem
    rw [h, h', afterDraws_eq, afterDraws_eq]
    rfl

/-! ### Reset and the write to CMD -/

/-- Settles O6: the release writes `Reg.zero` and cleared flags, and every limb of `Reg.zero` is 0. -/
theorem resetLeavesZero : Obligations.ResetLeavesZero := by
  refine ⟨⟨rfl, rfl, rfl, rfl, rfl, rfl⟩, limb_zero, fun s rest hr he => ?_⟩
  rw [step_of_events he, State.perform, if_pos hr]
  rfl

/-- Settles O9: the step performs the write, which is a RegWrite to CMD, which runs the command. -/
theorem stepRunsDecodedCommand : Obligations.StepRunsDecodedCommand := by
  intro s e rest c i hr he hw hc
  rw [step_of_writesTo hr he hw, regWrite_cmd_of_decode hc]

/-- With no flag set there is nothing for the flags to be sound about (R154). -/
theorem flagsSound_of_clear {s : State} (h : s.status = Status.clear) : s.FlagsSound := by
  simp [State.FlagsSound, Status.AtMostOne, h, Status.clear]

/-- Settles O20: reset leaves every flag 0. -/
theorem flagsSoundAtReset : Obligations.FlagsSoundAtReset := flagsSound_of_clear rfl

end Sys2Proof.Proofs
end

section
/-! The register space at the host port: what a read returns (R43), what a write leaves (R44), and what changes the
results (R28, R46, R170). -/

namespace Sys2Proof.Proofs

open Sys2Proof Sys2Proof.Machine Sys2Proof.Laws

/-- A register write changes A and B at most (R44). -/
theorem regStore_eq_with_operands (s : State) (addr : Address) (v : Word) :
    ∃ a b, s.regStore addr v = { s with a := a, b := b } := by
  obtain ⟨-, h⟩ | ⟨-, -, h⟩ | ⟨-, h⟩ := regStore_cases s addr v <;> exact ⟨_, _, h⟩

/-! ### The results -/

/-- Settles O22: of what a step can do, only a write to CMD and the release of reset touch RH, RL or STATUS. -/
theorem resultsChangeOnlyByCommandOrReset : Obligations.ResultsChangeOnlyByCommandOrReset := by
  intro s t h hne
  obtain ⟨_, _, _, rfl⟩ | ⟨rest, hr, he, -⟩ | ⟨e, rest, addr, v, hr, he, hw, hwrite⟩ := step_next_cases h
  · simp at hne
  · exact ⟨_, rest, he, .inr ⟨hr, rfl⟩⟩
  · obtain ⟨-, rfl⟩ | ⟨rfl, -⟩ := regWrite_next_cases hwrite
    · obtain ⟨_, _, hstore⟩ := regStore_eq_with_operands { s with events := rest } addr v
      simp [hstore] at hne
    · exact ⟨e, rest, he, .inl ⟨hr, v, hw⟩⟩

/-- Only the RANDOM commands draw words (R31, R129). -/
theorem drawCount_eq_zero {i : Instr} (h128 : i ≠ .random128) (h192 : i ≠ .random192) (h256 : i ≠ .random256) :
    drawCount i = 0 := by
  cases i
  case random128 => exact absurd rfl h128
  case random192 => exact absurd rfl h192
  case random256 => exact absurd rfl h256
  all_goals rfl

/-- Settles O48: a command that draws nothing changes the results alone, which are no operands (O47), so it reads the
same again. -/
theorem repeatedCommandGivesTheSame : Obligations.RepeatedCommandGivesTheSame := by
  intro i s h128 h192 h256
  obtain ⟨rh, rl, st, h⟩ := exec_writes i s
  rw [drawCount_eq_zero h128 h192 h256] at h
  exact ⟨_, h, (resultsAreNotOperands i s rh rl st).trans h⟩

/-! ### Reads -/

/-- Outside reset a step on a read answers with RegRead's word (R43). -/
theorem step_of_read {s : State} {addr : Address} {rest : List HostEvent} (hr : s.resetIn = false)
    (he : s.events = .read addr :: rest) :
    step s = .next { s with events := rest, answers := s.regRead addr :: s.answers } := by
  simp only [step_of_events he, State.perform, hr]
  rfl

/-- STATUS reads as ILL:T:NONE, zero-extended (R43). -/
theorem getLsbD_status_word (st : Status) (k : Nat) (hk : k < 16) :
    st.word.getLsbD k = if k = 0 then st.NONE else if k = 1 then st.T else if k = 2 then st.ILL else false := by
  obtain ⟨n, t, i⟩ := st
  revert n t i k
  decide

/-- RegRead follows the address map (R41, R43). -/
theorem readsAs_regRead (s : State) (addr : Address) : Claims.ReadsAs s addr (s.regRead addr) := by
  refine ⟨fun h => ?_, fun ⟨hlo, hhi⟩ => ?_, fun ⟨hlo, hhi⟩ => ?_, fun ⟨hlo, hhi⟩ => ?_, fun h => ?_, fun h k hk => ?_,
    fun h => ?_⟩
  all_goals simp (disch := omega) only [State.regRead, if_pos, if_neg]
  exact getLsbD_status_word s.status k hk

/-- Settles O13: the step answers with RegRead's word, which is the one the address map names. -/
theorem readReturnsMappedWord : Obligations.ReadReturnsMappedWord :=
  fun s addr _ hr he => ⟨_, step_of_read hr he, readsAs_regRead s addr⟩

/-! ### Writes outside CMD -/

/-- Outside reset a step on a write to any address but CMD is a register write (R44). -/
theorem step_of_writesTo_of_ne_cmd {s : State} {e : HostEvent} {rest : List HostEvent} {addr : Address} {v : Word}
    (hr : s.resetIn = false) (he : s.events = e :: rest) (hw : Claims.WritesTo s e addr v) (haddr : addr ≠ 0x40) :
    step s = .next (State.regStore { s with events := rest } addr v) := by
  rw [step_of_writesTo hr he hw, State.regWrite, if_neg (show addr ≠ cmdAddress from haddr)]

/-- A register write stores one limb of A or B, by the ranges of the address map, and nothing else (R44). -/
theorem stored_regStore (s : State) (addr : Address) (v : Word) : Claims.Stored s (s.regStore addr v) addr v := by
  obtain ⟨ha, hstore⟩ | ⟨hlo, hhi, hstore⟩ | ⟨hnone, hstore⟩ := regStore_cases s addr v <;> rw [hstore]
  · refine ⟨fun _ => ⟨⟨_, rfl⟩, fun k _ => ?_⟩, fun h => by omega, fun h => by omega⟩
    simp [limb_setLimb, show addr.toNat < 16 by omega]
  · refine ⟨fun h => by omega, fun _ => ⟨⟨_, rfl⟩, fun k _ => ?_⟩, fun h => by omega⟩
    simp [limb_setLimb, show addr.toNat - 16 < 16 by omega]
  · exact ⟨fun h => by omega, fun h => by omega, fun _ => rfl⟩

/-- Settles O14: outside CMD the step is a register write. -/
theorem writeStoresOrIsIgnored : Obligations.WriteStoresOrIsIgnored :=
  fun _ _ _ addr v hr he hw haddr => ⟨_, step_of_writesTo_of_ne_cmd hr he hw haddr, stored_regStore _ addr v⟩

theorem run_two_of_step {s t u : State} (hst : step s = .next t) (htu : step t = .next u) :
    Sys2Proof.core.run 2 s = .next u := by
  simp [Host.Core.run, Sys2Proof.core, hst, htu]

/-- Settles O15: the write is a register write, and RegRead at its address sees the word it wrote. -/
theorem readAfterWrite : Obligations.ReadAfterWrite := by
  intro s addr v rest hr haddr he
  have hcmd : addr ≠ 0x40 := by rintro rfl; exact absurd haddr (by decide)
  have hwrite := step_of_writesTo_of_ne_cmd hr he (.inl rfl) hcmd
  have hseen := regRead_regStore { s with events := .read addr :: rest } addr v haddr
  obtain ⟨a, b, hstore⟩ := regStore_eq_with_operands { s with events := .read addr :: rest } addr v
  rw [hstore] at hwrite hseen
  rw [if_pos rfl] at hseen
  exact ⟨_, run_two_of_step hwrite (step_of_read hr rfl), congrArg (· :: s.answers) hseen, rfl⟩

end Sys2Proof.Proofs
end

section
/-! The encoding: the decoder and the encoder are inverse to each other (R60 to R63), and with that the words that decode
(R65), the reserved words (R67) and what CMD does with either (R64, R68). -/

namespace Sys2Proof.Proofs

open Sys2Proof Sys2Proof.Machine Sys2Proof.Laws

/-! ### The command word and its fields -/

/-- The per-command facts of Laws, for every command. -/
theorem encoding_statement (i : Instr) : Encoding.Statement i := by
  cases i
  exacts [Encoding.zero128, Encoding.zero192, Encoding.zero256, Encoding.one128, Encoding.one192, Encoding.one256,
    Encoding.random128, Encoding.random192, Encoding.random256, Encoding.add128, Encoding.add192, Encoding.add256,
    Encoding.sub128, Encoding.sub192, Encoding.sub256, Encoding.mul128, Encoding.mul192, Encoding.mul256,
    Encoding.inv128, Encoding.inv192, Encoding.inv256, Encoding.iszero128, Encoding.iszero192, Encoding.iszero256,
    Encoding.isone128, Encoding.isone192, Encoding.isone256, Encoding.eq128, Encoding.eq192, Encoding.eq256,
    Encoding.wmul128, Encoding.wmul192, Encoding.wmul256, Encoding.divrem128, Encoding.divrem192, Encoding.divrem256,
    Encoding.clmul]

theorem decode_encode (i : Instr) : decode (encode i) = .ok i :=
  have ⟨h, _, _⟩ := encoding_statement i
  h

theorem encode_wellFormed (i : Instr) : (CommandFields.ofWord (encode i)).wellFormed = true :=
  have ⟨_, _, h⟩ := encoding_statement i
  h

/-- A word with 15:8 and 5:4 clear is put together again from its FSEL and OP (R60). -/
theorem commandWord_of_fields {c : Word} {f : FieldSel} (hz1 : c.extractLsb' 8 8 = 0) (hz0 : c.extractLsb' 4 2 = 0)
    (hfsel : c.extractLsb' 6 2 = f.code) : commandWord f (c.extractLsb' 0 4) = c := by
  have hlow : c.extractLsb' 6 2 ++ c.extractLsb' 4 2 ++ c.extractLsb' 0 4 = c.extractLsb' 0 8 := by
    rw [BitVec.extractLsb'_append_extractLsb'_eq_extractLsb' (show 6 = 4 + 2 from rfl),
      BitVec.extractLsb'_append_extractLsb'_eq_extractLsb' (show 4 = 0 + 4 from rfl)]
  have hhigh : c.toNat / 256 % 256 = 0 := by
    simpa [Nat.shiftRight_eq_div_pow] using congrArg BitVec.toNat hz1
  rw [commandWord, ← hfsel, show (0b00 : BitVec 2) = c.extractLsb' 4 2 from hz0.symm, hlow]
  apply BitVec.eq_of_toNat_eq
  have hlt := c.isLt
  simp only [BitVec.toNat_setWidth, BitVec.extractLsb'_toNat, Nat.shiftRight_zero]
  omega

theorem selectField_eq_some_iff (fsel : BitVec 2) (f : FieldSel) : selectField fsel = some f ↔ fsel = f.code := by
  revert fsel
  cases f <;> decide

/-- FSEL names a field unless it is 0b11 (R62). -/
theorem exists_code_eq {fsel : BitVec 2} (h : fsel ≠ 3) : ∃ f : FieldSel, fsel = f.code := by
  have hsome : (selectField fsel).isSome = true := by
    revert fsel
    decide
  obtain ⟨f, hf⟩ := Option.isSome_iff_exists.1 hsome
  exact ⟨f, (selectField_eq_some_iff fsel f).1 hf⟩

/-- The encoder writes the OP under which `fieldCommands` lists the command (R61). -/
theorem encode_pickField {op : BitVec 4} {row : Instr × Instr × Instr} (f : FieldSel)
    (h : fieldCommands op.toNat = some row) : encode (pickField f row) = commandWord f op := by
  have hrows : ∀ op : BitVec 4, ∀ row ∈ fieldCommands op.toNat, encode (pickField f row) = commandWord f op := by
    cases f <;> decide
  exact hrows op row h

/-- The OP values below CLMUL's name a command in every field (R61). -/
theorem exists_encode_eq_commandWord (f : FieldSel) {op : BitVec 4} (h : op.toNat < 0xC) :
    ∃ i, encode i = commandWord f op := by
  have hsome : (fieldCommands op.toNat).isSome = true := by
    revert op
    decide
  obtain ⟨row, hrow⟩ := Option.isSome_iff_exists.1 hsome
  exact ⟨_, encode_pickField f hrow⟩

/-! ### Decoding -/

/-- What a word that decodes looks like: Z1 and Z0 are clear, and OP and FSEL are CLMUL's or those of a row of the opcode
map (R63). -/
theorem decode_ok_cases {c : Word} {i : Instr} (h : decode c = .ok i) :
    c.extractLsb' 8 8 = 0 ∧ c.extractLsb' 4 2 = 0
      ∧ ((c.extractLsb' 0 4 = 0xC ∧ c.extractLsb' 6 2 = 0 ∧ i = .clmul)
        ∨ ∃ f row, c.extractLsb' 6 2 = f.code ∧ fieldCommands (c.extractLsb' 0 4).toNat = some row
            ∧ i = pickField f row) := by
  unfold decode at h
  simp only at h
  split_ifs at h with hz1 hz0 hres hclmul hfsel
  · cases h
    exact ⟨not_not.1 hz1, not_not.1 hz0, .inl ⟨hclmul, hfsel, rfl⟩⟩
  · split at h
    next f row hf hrow =>
      cases h
      exact ⟨not_not.1 hz1, not_not.1 hz0, .inr ⟨f, row, (selectField_eq_some_iff _ f).1 hf, hrow, rfl⟩⟩
    next => cases h

theorem encode_of_decode {c : Word} {i : Instr} (h : decode c = .ok i) : encode i = c := by
  obtain ⟨hz1, hz0, ⟨hop, hfsel, rfl⟩ | ⟨f, row, hfsel, hrow, rfl⟩⟩ := decode_ok_cases h
  · have hword := commandWord_of_fields (f := .f128) hz1 hz0 hfsel
    rwa [hop] at hword
  · rw [encode_pickField f hrow, commandWord_of_fields hz1 hz0 hfsel]

/-- Settles O3: a word that decodes is made of the fields that its command encodes. -/
theorem decodeEncodeAgree : Obligations.DecodeEncodeAgree := by
  intro c i
  constructor
  · exact encode_of_decode
  · rintro rfl
    exact decode_encode i

/-- The table of R65 pairs each command with its own word. -/
theorem encode_eq_iff_mem_legalWords (c : Word) (i : Instr) : encode i = c ↔ (c, i) ∈ Claims.legalWords := by
  have hrows : ∀ p ∈ Claims.legalWords, encode p.2 = p.1 := by decide
  have hlisted : (encode i, i) ∈ Claims.legalWords := by cases i <;> decide
  constructor
  · rintro rfl
    exact hlisted
  · exact hrows (c, i)

/-- Settles O2: the table lists each command once, with the word that it encodes. -/
theorem legalWordsAreTheTable : Obligations.LegalWordsAreTheTable := fun c i =>
  (decodeEncodeAgree c i).trans (encode_eq_iff_mem_legalWords c i)

/-- The checks of WellFormed on the four fields (R67). -/
theorem wellFormed_iff (w : CommandFields) : w.wellFormed = true ↔
    w.z1 = 0 ∧ w.z0 = 0 ∧ w.op.toNat < 0xD ∧ w.fsel ≠ 3 ∧ (w.op ≠ 0xC ∨ w.fsel = 0) := by
  simp [CommandFields.wellFormed, CommandFields.z1Ok, CommandFields.z0Ok, CommandFields.opOk, CommandFields.fselOk,
    CommandFields.clmulOk, and_assoc]

/-- The same checks on the bits of a word (R60, R67). -/
theorem wellFormed_ofWord_iff (c : Word) : (CommandFields.ofWord c).wellFormed = true ↔
    c.extractLsb' 8 8 = 0 ∧ c.extractLsb' 4 2 = 0 ∧ (c.extractLsb' 0 4).toNat < 0xD ∧ c.extractLsb' 6 2 ≠ 3
      ∧ (c.extractLsb' 0 4 ≠ 0xC ∨ c.extractLsb' 6 2 = 0) :=
  wellFormed_iff (CommandFields.ofWord c)

/-- A well-formed word is the word of some command: of CLMUL, or of a field command (R61, R62). -/
theorem exists_encode_eq_of_wellFormed {c : Word} (h : (CommandFields.ofWord c).wellFormed = true) :
    ∃ i, encode i = c := by
  obtain ⟨hz1, hz0, hop, hfsel, hclmul⟩ := (wellFormed_ofWord_iff c).1 h
  by_cases hc : c.extractLsb' 0 4 = 0xC
  · have hword := commandWord_of_fields (f := .f128) hz1 hz0 (hclmul.resolve_left (not_not.2 hc))
    rw [hc] at hword
    exact ⟨.clmul, hword⟩
  · have hlt : (c.extractLsb' 0 4).toNat < 0xC := by
      have hne : (c.extractLsb' 0 4).toNat ≠ 0xC := fun heq => hc (BitVec.eq_of_toNat_eq heq)
      omega
    obtain ⟨f, hf⟩ := exists_code_eq hfsel
    obtain ⟨i, hi⟩ := exists_encode_eq_commandWord f hlt
    exact ⟨i, hi.trans (commandWord_of_fields hz1 hz0 hf)⟩

/-- Settles O5: the words that decode are those of the commands (O3), and those are the well-formed ones. -/
theorem legalIffWellFormed : Obligations.LegalIffWellFormed := by
  intro c
  constructor
  · rintro ⟨i, h⟩
    rw [← encode_of_decode h]
    exact encode_wellFormed i
  · intro h
    obtain ⟨i, rfl⟩ := exists_encode_eq_of_wellFormed h
    exact ⟨i, decode_encode i⟩

theorem decode_error_iff (c : Word) : (∃ e, decode c = .error e) ↔ ¬∃ i, decode c = .ok i := by
  cases decode c <;> simp

theorem reservedOp_iff (op : BitVec 4) : ¬op.toNat < 0xD ↔ op = 0xD ∨ op = 0xE ∨ op = 0xF := by
  revert op
  decide

/-- Settles O4: a reserved word is one that fails a check of WellFormed (O5), and each case of R67 is one check failing. -/
theorem reservedWordsAreTheSpecs : Obligations.ReservedWordsAreTheSpecs := by
  intro c
  rw [decode_error_iff, legalIffWellFormed, wellFormed_ofWord_iff]
  simp only [not_and_or, not_or, not_not, reservedOp_iff, ne_eq]

/-- Settles O1: the decoder run on each word. -/
theorem someWordsDecode : Obligations.SomeWordsDecode := ⟨rfl, rfl, rfl, rfl, rfl, rfl, rfl, rfl, rfl⟩

/-! ### Commands, reserved words and idle steps -/

theorem decode_of_decodeTableWord {w : Nat} {i : Instr} (h : decodeTableWord 16 w = some i) :
    decode (BitVec.ofNat 16 (w % 2 ^ 16)) = .ok i := by
  rw [decodeTableWord, if_pos (Nat.mod_lt w (by decide))] at h
  generalize decode (BitVec.ofNat 16 (w % 2 ^ 16)) = d at h
  cases d with
  | ok j => exact congrArg Except.ok (Option.some.inj h)
  | error e => cases h

/-- Settles O10: `withFetchWord` (log 7) lists a write to CMD, and a step on one runs the decoded command (O9). -/
theorem fetchedWordRuns : Obligations.FetchedWordRuns := fun _ _ _ h =>
  stepRunsDecodedCommand _ _ _ _ _ rfl rfl (.inl rfl) (decode_of_decodeTableWord h)

/-- A write of a reserved word to CMD writes cleared results with ILL (R68). -/
theorem regWrite_cmd_of_reserved {s : State} {c : Word} (h : ¬∃ i, decode c = .ok i) :
    s.regWrite 0x40 c = .next s.reservedCommand := by
  rw [State.regWrite, if_pos (show (0x40 : Address) = cmdAddress from rfl)]
  obtain ⟨i, hi, -⟩ | ⟨e, -, hnext⟩ := command_cases s c
  · exact absurd ⟨i, hi⟩ h
  · exact hnext

/-- INV.f answers with ILL 0, in both of its branches (R133). -/
theorem invCommand_status_ILL (f : FieldSel) (s : State) : (invCommand f s).status.ILL = false := by
  unfold invCommand
  split
  · rfl
  · rfl

/-- Every legal command answers with ILL 0 (R68, R126). -/
theorem exec_status_ILL (i : Instr) (s : State) : ∃ t, exec i s = .next t ∧ t.status.ILL = false := by
  cases i
  case inv128 => exact ⟨_, rfl, invCommand_status_ILL .f128 s⟩
  case inv192 => exact ⟨_, rfl, invCommand_status_ILL .f192 s⟩
  case inv256 => exact ⟨_, rfl, invCommand_status_ILL .f256 s⟩
  all_goals exact ⟨_, rfl, rfl⟩

/-- Settles O11: the step is a write to CMD, and a legal command writes STATUS anew. -/
theorem reservedWordSetsIll : Obligations.ReservedWordSetsIll := by
  refine ⟨fun s e rest c hr he hw hc => ?_, exec_status_ILL⟩
  rw [step_of_writesTo hr he hw, regWrite_cmd_of_reserved hc]
  rfl

/-- Settles O12: a step performs a listed event, or there is none (log 4). -/
theorem idleStepChangesNothing : Obligations.IdleStepChangesNothing := by
  intro s hs
  obtain ⟨-, h⟩ | ⟨e, rest, he, -⟩ := step_cases s
  · exact h
  · cases hs.symm.trans he

end Sys2Proof.Proofs
end

section
/-! The copies MVLA, MVLB and MVHA of the assembler: read a word of a result, write it to an operand, L times
(R72). -/

namespace Sys2Proof.Proofs

open Sys2Proof Sys2Proof.Machine Sys2Proof.Laws

/-! ### Runs -/

/-- A run of j + k steps is a run of k steps from where j steps lead. -/
theorem run_add_of_run {j : Nat} (k : Nat) {s t : State} (h : Sys2Proof.core.run j s = .next t) :
    Sys2Proof.core.run (j + k) s = Sys2Proof.core.run k t := by
  induction j generalizing s with
  | zero =>
    cases h
    rw [Nat.zero_add]
  | succ j ih =>
    rw [Nat.succ_add]
    simp only [Host.Core.run] at h ⊢
    split at h
    next u hu => exact ih h
    next => cases h
    next => cases h

/-! ### One word copied -/

@[simp] theorem wordAddress_toNat {base k : Nat} (h : base + k < 0x80) : (wordAddress base k).toNat = base + k :=
  Nat.mod_eq_of_lt h

/-- s with other words in A and B, other events to come and other answers given: what a host's reads and writes of
operands can make of s (R43, R44). -/
def withOperands (s : State) (a b : Reg) (events : List HostEvent) (answers : List Word) : State :=
  { s with a := a, b := b, events := events, answers := answers }

section
variable (s : State) (a b : Reg) (events : List HostEvent) (answers : List Word)

@[simp] theorem withOperands_a : (withOperands s a b events answers).a = a := rfl

@[simp] theorem withOperands_b : (withOperands s a b events answers).b = b := rfl

/-- At and above 0x20 RegRead looks at RH, RL and STATUS alone (R43). -/
theorem regRead_withOperands {addr : Address} (h : 0x20 ≤ addr.toNat) :
    (withOperands s a b events answers).regRead addr = s.regRead addr := by
  simp (disch := omega) only [State.regRead, if_neg, withOperands]

end

/-- A read and a writeBack copy a word to a word of an operand, and no other word of A or B changes (R72). -/
theorem run_copyWord {s : State} {source target : Address} {rest : List HostEvent} (hr : s.resetIn = false)
    (ht : target.toNat < 0x20) (he : s.events = .read source :: .writeBack target :: rest) :
    ∃ a b ans, Sys2Proof.core.run 2 s = .next (withOperands s a b rest ans)
      ∧ ∀ addr : Address, addr.toNat < 0x20 →
          (withOperands s a b rest ans).regRead addr = if addr = target then s.regRead source else s.regRead addr := by
  have hcmd : target ≠ 0x40 := by rintro rfl; exact absurd ht (by decide)
  have hread := step_of_read hr he
  have hwrite := step_of_writesTo_of_ne_cmd (v := s.regRead source)
    (s := { s with events := .writeBack target :: rest, answers := s.regRead source :: s.answers }) hr rfl
    (.inr ⟨rfl, rfl⟩) hcmd
  have hseen := fun addr => regRead_regStore (addr := addr)
    { s with events := rest, answers := s.regRead source :: s.answers } target (s.regRead source)
  obtain ⟨a, b, hstore⟩ := regStore_eq_with_operands
    { s with events := rest, answers := s.regRead source :: s.answers } target (s.regRead source)
  rw [hstore] at hwrite
  simp only [hstore] at hseen
  exact ⟨a, b, _, run_two_of_step hread hwrite, hseen⟩

/-! ### n words copied -/

/-- The accesses that copy the n words from source on to those from target on: `copyLimbs` for any number of words. -/
def copyWords (source target n : Nat) : List HostEvent :=
  (List.range n).flatMap fun k => [.read (wordAddress source k), .writeBack (wordAddress target k)]

theorem copyWords_succ_append (source target n : Nat) (rest : List HostEvent) :
    copyWords source target (n + 1) ++ rest = copyWords source target n
      ++ .read (wordAddress source n) :: .writeBack (wordAddress target n) :: rest := by
  simp [copyWords, List.range_succ]

/-- 2·n steps copy n words of the results to n words of the operands, and no other word of A or B changes (R72). -/
theorem run_copyWords {source target n : Nat} {s : State} {rest : List HostEvent} (hr : s.resetIn = false)
    (hsource : 0x20 ≤ source) (hn : source + n ≤ 0x80) (htarget : target + n ≤ 0x20)
    (he : s.events = copyWords source target n ++ rest) :
    ∃ a b ans, Sys2Proof.core.run (2 * n) s = .next (withOperands s a b rest ans)
      ∧ ∀ addr : Address, addr.toNat < 0x20 → (withOperands s a b rest ans).regRead addr =
          if target ≤ addr.toNat ∧ addr.toNat < target + n then s.regRead (wordAddress source (addr.toNat - target))
          else s.regRead addr := by
  induction n generalizing rest with
  | zero =>
    refine ⟨s.a, s.b, s.answers, ?_, fun addr haddr => ?_⟩
    · rw [← show s.events = rest from he]
      rfl
    · rw [if_neg (by omega)]
      exact regRead_eq_of_operands_eq haddr rfl rfl
  | succ n ih =>
    rw [copyWords_succ_append] at he
    obtain ⟨a, b, ans, hrun, hwords⟩ := ih (by omega) (by omega) he
    have hresult : 0x20 ≤ (wordAddress source n).toNat := by rw [wordAddress_toNat (by omega)]; omega
    have htoNat : (wordAddress target n).toNat = target + n := wordAddress_toNat (by omega)
    have hoperand : (wordAddress target n).toNat < 0x20 := by omega
    obtain ⟨a', b', ans', hrun', hwords'⟩ := run_copyWord (s := withOperands s a b _ ans) hr hoperand rfl
    refine ⟨a', b', ans', (run_add_of_run 2 hrun).trans hrun', fun addr haddr => (hwords' addr haddr).trans ?_⟩
    rw [regRead_withOperands _ _ _ _ _ hresult, hwords addr haddr]
    by_cases hlast : addr = wordAddress target n
    · rw [if_pos hlast, hlast, htoNat, if_pos (by omega), Nat.add_sub_cancel_left]
    · have hne : addr.toNat ≠ target + n := fun h => hlast (BitVec.eq_of_toNat_eq (h.trans htoNat.symm))
      have hrange : (target ≤ addr.toNat ∧ addr.toNat < target + (n + 1))
          ↔ target ≤ addr.toNat ∧ addr.toNat < target + n := by omega
      simp only [if_neg hlast, hrange]

/-! ### MVLA, MVLB and MVHA -/

@[simp] theorem regRead_word_a (s : State) {k : Nat} (hk : k < 16) : s.regRead (wordAddress 0x00 k) = s.a.limb k := by
  simp (disch := omega) only [State.regRead, wordAddress_toNat, if_pos, Nat.zero_add]

@[simp] theorem regRead_word_b (s : State) {k : Nat} (hk : k < 16) : s.regRead (wordAddress 0x10 k) = s.b.limb k := by
  simp (disch := omega) only [State.regRead, wordAddress_toNat, if_pos, if_neg, Nat.add_sub_cancel_left]

@[simp] theorem regRead_word_rh (s : State) {k : Nat} (hk : k < 16) : s.regRead (wordAddress 0x20 k) = s.rh.limb k := by
  simp (disch := omega) only [State.regRead, wordAddress_toNat, if_pos, if_neg, Nat.add_sub_cancel_left]

@[simp] theorem regRead_word_rl (s : State) {k : Nat} (hk : k < 16) : s.regRead (wordAddress 0x30 k) = s.rl.limb k := by
  simp (disch := omega) only [State.regRead, wordAddress_toNat, if_pos, if_neg, Nat.add_sub_cancel_left]

/-- A copy, limb by limb: a word of A stands at its limb's number, a word of B 0x10 above (R41, R72). -/
theorem run_copyLimbs {source target : Nat} {f : FieldSel} {s : State} {rest : List HostEvent} (hr : s.resetIn = false)
    (hsource : 0x20 ≤ source) (hmapped : source ≤ 0x30) (htarget : target ≤ 0x10)
    (he : s.events = copyLimbs source target f ++ rest) :
    ∃ a b ans, Sys2Proof.core.run (2 * f.limbs) s = .next (withOperands s a b rest ans)
      ∧ (∀ k < 16, a.limb k =
          if target ≤ k ∧ k < target + f.limbs then s.regRead (wordAddress source (k - target)) else s.a.limb k)
      ∧ ∀ k < 16, b.limb k =
          if target ≤ 0x10 + k ∧ 0x10 + k < target + f.limbs then s.regRead (wordAddress source (0x10 + k - target))
          else s.b.limb k := by
  have hL := limbs_le f
  obtain ⟨a, b, ans, hrun, hwords⟩ := run_copyWords hr hsource (by omega) (by omega) he
  refine ⟨a, b, ans, hrun, fun k hk => ?_, fun k hk => ?_⟩
  · have h := hwords (wordAddress 0x00 k) (by rw [wordAddress_toNat (by omega)]; omega)
    rwa [regRead_word_a _ hk, regRead_word_a _ hk, wordAddress_toNat (by omega), Nat.zero_add] at h
  · have h := hwords (wordAddress 0x10 k) (by rw [wordAddress_toNat (by omega)]; omega)
    rwa [regRead_word_b _ hk, regRead_word_b _ hk, wordAddress_toNat (by omega)] at h

/-- Copies to A leave B as it is. -/
theorem run_copyLimbs_a {source : Nat} {f : FieldSel} {s : State} {rest : List HostEvent} (hr : s.resetIn = false)
    (hsource : 0x20 ≤ source) (hmapped : source ≤ 0x30) (he : s.events = copyLimbs source 0x00 f ++ rest) :
    ∃ r ans, Sys2Proof.core.run (2 * f.limbs) s = .next { s with a := r, events := rest, answers := ans }
      ∧ ∀ k < 16, r.limb k = if k < f.limbs then s.regRead (wordAddress source k) else s.a.limb k := by
  have hL := limbs_le f
  obtain ⟨a, b, ans, hrun, ha, hb⟩ := run_copyLimbs hr hsource hmapped (by decide) he
  obtain rfl : b = s.b := reg_ext fun k hk => by rw [hb k hk, if_neg (by omega)]
  exact ⟨a, ans, hrun, by simpa using ha⟩

/-- Settles O55: the copies are of words of RL and RH, at 0x30 and 0x20; MVLB leaves A as it is. -/
theorem copiesMoveResultsToOperands : Obligations.CopiesMoveResultsToOperands := by
  intro f s rest hr
  refine ⟨fun he => ?_, fun he => ?_, fun he => ?_⟩
  · obtain ⟨r, ans, hrun, hlimbs⟩ := run_copyLimbs_a hr (by decide) (by decide) he
    exact ⟨r, ans, hrun, fun k hk => by rw [hlimbs k hk, regRead_word_rl s hk]⟩
  · obtain ⟨a, b, ans, hrun, ha, hb⟩ := run_copyLimbs hr (by decide) (by decide) (by decide) he
    obtain rfl : a = s.a := reg_ext fun k hk => by rw [ha k hk, if_neg (by omega)]
    exact ⟨b, ans, hrun, fun k hk => by simpa [regRead_word_rl s hk] using hb k hk⟩
  · obtain ⟨r, ans, hrun, hlimbs⟩ := run_copyLimbs_a hr (by decide) (by decide) he
    exact ⟨r, ans, hrun, fun k hk => by rw [hlimbs k hk, regRead_word_rh s hk]⟩

end Sys2Proof.Proofs
end

section
/-! The word operations: the widening shift (R80), the word multiply and its properties (R81 to R83), CLMUL (R84). -/

namespace Sys2Proof.Proofs

open Sys2Proof Sys2Proof.Machine Sys2Proof.Laws

/-- The 32-bit value of a pair determines its two words. -/
theorem pairVal_injective : Function.Injective pairVal := by
  rintro ⟨h, l⟩ ⟨h', l'⟩ heq
  have hl := l.isLt
  have hl' := l'.isLt
  simp only [pairVal] at heq
  exact Prod.ext (BitVec.eq_of_toNat_eq (by dsimp only; omega)) (BitVec.eq_of_toNat_eq (by dsimp only; omega))

/-- Settles O41: the two words of the shift hold a·2^i (R80), and 0·2^16 + a and a·2^16 + 0 determine theirs. -/
theorem wideningShiftLosesNoBit : Obligations.WideningShiftLosesNoBit := fun a _ hi =>
  ⟨wshl_spec a hi,
    pairVal_injective (by rw [wshl_spec a (by decide)]; simp [pairVal]),
    pairVal_injective (by rw [wshl_spec a (by decide)]; simp [pairVal])⟩

/-- The pair that clmul leaves is the product of its words, bit for bit (R82). -/
theorem isProduct_clmul (a b : Word) : IsProduct (pairVal (clmul a b)) a.toNat b.toNat :=
  isProduct_unique.2 (clmul_spec a b)

/-- A polynomial of L limbs leaves the words above them 0 (R24). -/
theorem zeroFrom_ofPoly {L : Nat} (hL : L ≤ 16) (p : Poly L) : Claims.ZeroFrom L (Reg.ofPoly p) := fun k hk _ => by
  rw [limb_ofPoly hL, dif_neg (by omega)]

/-- Settles O40: CLMUL writes the two words of the product as polynomials of one limb. -/
theorem clmulIsTheWordProduct : Obligations.ClmulIsTheWordProduct := by
  refine ⟨decode_encode .clmul, fun s =>
    ⟨_, _, rfl, ?_, zeroFrom_ofPoly (by decide) _, zeroFrom_ofPoly (by decide) _⟩⟩
  simpa [limb_ofPoly, pairVal] using isProduct_clmul (s.a.limb 0) (s.b.limb 0)

/-- XOR of pairs, word by word, is XOR of their values. -/
theorem pairVal_xor (x y : Word × Word) : pairVal (x.1 ^^^ y.1, x.2 ^^^ y.2) = pairVal x ^^^ pairVal y := by
  apply toPoly_injective
  simp only [toPoly_xor, toPoly_pairVal, BitVec.toNat_xor]
  ring

/-- clmul gives the pair whose value is the carryless product (R82). -/
theorem clmul_eq_iff {a b : Word} {hl : Word × Word} : clmul a b = hl ↔ cl a.toNat b.toNat = pairVal hl := by
  rw [← clmul_spec, pairVal_injective.eq_iff]

theorem clmul_comm (a b : Word) : clmul a b = clmul b a := by
  rw [clmul_eq_iff, clmul_spec, cl_comm]

theorem clmul_zero (a : Word) : clmul a 0 = (0, 0) := clmul_eq_iff.2 (by simp [pairVal])

theorem clmul_one (a : Word) : clmul a 1 = (0, a) := clmul_eq_iff.2 (by simp [pairVal])

theorem clmul_xor (a b c : Word) :
    clmul a (b ^^^ c) = ((clmul a b).1 ^^^ (clmul a c).1, (clmul a b).2 ^^^ (clmul a c).2) := by
  rw [clmul_eq_iff, BitVec.toNat_xor, cl_xor, pairVal_xor, clmul_spec, clmul_spec]

/-- The product of two words has degree at most 30 (R83). -/
theorem getLsbD_clmul_high (a b : Word) : (clmul a b).1.getLsbD 15 = false := by
  have hlt : pairVal (clmul a b) < 2 ^ (15 + 16) := clmul_spec a b ▸ cl_lt a.isLt b.isLt
  refine Nat.testBit_lt_two_pow ?_
  rw [pairVal] at hlt
  omega

/-- Settles O42: the algebra is that of the carryless product, of which the two words keep every bit. -/
theorem clmulProperties : Obligations.ClmulProperties :=
  ⟨fun x => ⟨clmul_comm 0 x ▸ clmul_zero x, clmul_zero x, clmul_comm 1 x ▸ clmul_one x, clmul_one x⟩,
    fun a b => ⟨clmul_comm a b, getLsbD_clmul_high a b, isProduct_clmul a b⟩,
    clmul_xor, by decide, by decide⟩

end Sys2Proof.Proofs
end

section
/-! Polynomials of L limbs: the widening multiply WMUL (R93, R94, R96) and its properties (R95). -/

namespace Sys2Proof.Proofs

open Sys2Proof Sys2Proof.Machine Sys2Proof.Laws Polynomial

/-! ### WMUL leaves the exact product -/

/-- A register that holds a polynomial of L limbs has its value (R12, R24). -/
theorem value_ofPoly {L : Nat} (hL : L ≤ 16) (p : Poly L) : Claims.value (Reg.ofPoly p) L = p.val := by
  rw [Claims.value, poly_ofPoly hL]

/-- The halves that wmul returns are the product of its operands, bit for bit (R94). -/
theorem isProduct_wmul {L : Nat} (a b : Poly L) : IsProduct (Poly.wideVal (wmul a b).1 (wmul a b).2) a.val b.val :=
  isProduct_unique.2 (wmul_spec a b)

/-- A command whose meaning is `wmulCommand` leaves what R96 asks. -/
theorem wmulResult_of_exec {i : Instr} {f : FieldSel} {w : Word} (hdecode : decode w = .ok i)
    (hexec : ∀ s, exec i s = .next (wmulCommand f s)) : Claims.WmulResult i f w := by
  refine ⟨hdecode, fun s => ⟨_, _, hexec s, ?_, zeroFrom_ofPoly (limbs_le f) _, zeroFrom_ofPoly (limbs_le f) _⟩⟩
  rw [value_ofPoly (limbs_le f), value_ofPoly (limbs_le f)]
  exact isProduct_wmul _ _

/-- Settles O38: each command writes the two halves of wmul, which meet the contract of R94. -/
theorem wmulIsTheExactProduct : Obligations.WmulIsTheExactProduct :=
  ⟨wmulResult_of_exec (decode_encode .wmul128) fun _ => rfl, wmulResult_of_exec (decode_encode .wmul192) fun _ => rfl,
    wmulResult_of_exec (decode_encode .wmul256) fun _ => rfl⟩

/-! ### The halves of a wide value -/

/-- The low half of wval_L is its bits below 16·L (R14). -/
theorem testBit_wideVal_low {L d : Nat} (hi lo : Poly L) (hd : d < 16 * L) :
    (Poly.wideVal hi lo).testBit d = lo.val.testBit d := by
  rw [Poly.wideVal, Nat.mul_comm, Nat.testBit_two_pow_mul_add _ (val_lt lo), if_pos hd]

/-- The high half of wval_L is its bits from 16·L up (R14). -/
theorem testBit_wideVal_high {L : Nat} (hi lo : Poly L) (d : Nat) :
    (Poly.wideVal hi lo).testBit (16 * L + d) = hi.val.testBit d := by
  rw [Poly.wideVal, Nat.mul_comm, Nat.testBit_two_pow_mul_add _ (val_lt lo), if_neg (by omega), Nat.add_sub_cancel_left]

/-- wval_L determines its two halves (R14). -/
theorem wideVal_injective {L : Nat} {p q : Poly L × Poly L} (h : Poly.wideVal p.1 p.2 = Poly.wideVal q.1 q.2) : p = q := by
  refine Prod.ext (val_injective (Nat.eq_of_testBit_eq fun d => ?_)) (val_injective (Nat.eq_of_testBit_eq fun d => ?_))
  · rw [← testBit_wideVal_high p.1 p.2, h, testBit_wideVal_high]
  · by_cases hd : d < 16 * L
    · rw [← testBit_wideVal_low p.1 p.2 hd, h, testBit_wideVal_low _ _ hd]
    · have hle : 2 ^ (16 * L) ≤ 2 ^ d := Nat.pow_le_pow_right (by decide) (by omega)
      rw [Nat.testBit_lt_two_pow ((val_lt p.2).trans_le hle), Nat.testBit_lt_two_pow ((val_lt q.2).trans_le hle)]

/-- wmul returns the one pair whose wide value is the carryless product (R94). -/
theorem wmul_eq_iff {L : Nat} {a b : Poly L} {hl : Poly L × Poly L} :
    wmul a b = hl ↔ cl a.val b.val = Poly.wideVal hl.1 hl.2 := by
  rw [← wmul_spec]
  exact ⟨fun h => by rw [h], wideVal_injective⟩

/-! ### Sums -/

/-- padd is XOR of the values (R92). -/
@[simp] theorem val_add {L : Nat} (a b : Poly L) : (Poly.add a b).val = a.val ^^^ b.val := by
  apply toPoly_injective
  rw [toPoly_xor, toPoly_val, toPoly_val, toPoly_val, ← Finset.sum_add_distrib]
  simp [Poly.add, add_mul]

/-- padd on each half is XOR of the wide values (R14, R92). -/
theorem wideVal_add {L : Nat} (p q : Poly L × Poly L) :
    Poly.wideVal (Poly.add p.1 q.1) (Poly.add p.2 q.2) = Poly.wideVal p.1 p.2 ^^^ Poly.wideVal q.1 q.2 := by
  apply toPoly_injective
  simp only [toPoly_xor, toPoly_wideVal, val_add]
  ring

/-! ### The properties of R95, (a) to (d) and (f) -/

theorem wmul_comm {L : Nat} (a b : Poly L) : wmul a b = wmul b a := by
  rw [wmul_eq_iff, wmul_spec, cl_comm]

theorem wmul_zero {L : Nat} (a : Poly L) : wmul a (Poly.zero L) = (Poly.zero L, Poly.zero L) :=
  wmul_eq_iff.2 (by simp [Poly.wideVal])

theorem wmul_one {L : Nat} (hL : 0 < L) (a : Poly L) : wmul a (Poly.one L) = (Poly.zero L, a) :=
  wmul_eq_iff.2 (by simp [Poly.wideVal, val_one hL])

theorem wmul_add {L : Nat} (a b c : Poly L) :
    wmul a (Poly.add b c) = (Poly.add (wmul a b).1 (wmul a c).1, Poly.add (wmul a b).2 (wmul a c).2) := by
  rw [wmul_eq_iff, val_add, cl_xor, wideVal_add, wmul_spec, wmul_spec]

theorem add_wmul {L : Nat} (a b c : Poly L) :
    wmul (Poly.add b c) a = (Poly.add (wmul b a).1 (wmul c a).1, Poly.add (wmul b a).2 (wmul c a).2) := by
  rw [wmul_comm, wmul_add, wmul_comm a b, wmul_comm a c]

/-- The product has degree at most 32·L − 2, so the top bit of the high half is 0. -/
theorem getLsbD_wmul_high {L : Nat} (hL : 0 < L) (a b : Poly L) : (((wmul a b).1[0]?).getD 0).getLsbD 15 = false := by
  have hsucc : 16 * L - 1 + 1 = 16 * L := by omega
  have hlt : cl a.val b.val < 2 ^ (16 * L - 1 + 16 * L) := cl_lt (hsucc ▸ val_lt a) (val_lt b)
  have htop : 16 * L - 1 + 16 * L = 16 * L + (16 * (L - 1 - 0) + 15) := by omega
  rw [Vector.getElem?_eq_getElem hL, Option.getD_some, getLsbD_limb_eq_testBit_val _ hL (by decide),
    ← testBit_wideVal_high _ (wmul a b).2, wmul_spec, ← htop, Nat.testBit_lt_two_pow hlt]

/-! ### Squares: R95 (g) -/

/-- Over GF(2) the square of P(x) is P(x²): bit d moves to bit 2d. -/
theorem testBit_cl_self (a k : Nat) : (cl a a).testBit k = (decide (2 ∣ k) && a.testBit (k / 2)) := by
  apply bitVal_injective
  rw [← coeff_toPoly, toPoly_cl, ← pow_two, ← ZMod.expand_card, coeff_expand (by decide), coeff_toPoly]
  by_cases h : 2 ∣ k <;> simp [h, bitVal]

/-- The word 0x5555 has its even bits set. -/
theorem eq_0x5555_of_even_bits {w : Word} (h : ∀ j < 16, w.getLsbD j = decide (2 ∣ j)) : w = 0x5555 := by
  have hbits : ∀ j < 16, (0x5555 : Word).getLsbD j = decide (2 ∣ j) := by decide
  exact BitVec.eq_of_getLsbD_eq fun j hj => (h j hj).trans (hbits j hj).symm

/-- The polynomial with every coefficient 1. -/
def allOnes (L : Nat) : Poly L := Poly.ofNat L (2 ^ (16 * L) - 1)

/-- Its square has every even bit set below 32·L. -/
theorem testBit_wmul_allOnes {L k : Nat} (hk : k < 32 * L) :
    (Poly.wideVal (wmul (allOnes L) (allOnes L)).1 (wmul (allOnes L) (allOnes L)).2).testBit k = decide (2 ∣ k) := by
  have hval : (allOnes L).val = 2 ^ (16 * L) - 1 := val_ofNat (Nat.sub_lt (Nat.two_pow_pos _) Nat.one_pos)
  have hhalf : k / 2 < 16 * L := by omega
  rw [wmul_spec, testBit_cl_self, hval, Nat.testBit_two_pow_sub_one, decide_eq_true hhalf, Bool.and_true]

theorem wmul_allOnes_limbs {L k : Nat} (hk : k < L) :
    (wmul (allOnes L) (allOnes L)).1[k] = 0x5555 ∧ (wmul (allOnes L) (allOnes L)).2[k] = 0x5555 := by
  constructor
  · refine eq_0x5555_of_even_bits fun j hj => ?_
    rw [getLsbD_limb_eq_testBit_val _ hk hj, ← testBit_wideVal_high _ (wmul (allOnes L) (allOnes L)).2,
      testBit_wmul_allOnes (by omega), decide_eq_decide]
    omega
  · refine eq_0x5555_of_even_bits fun j hj => ?_
    rw [getLsbD_limb_eq_testBit_val _ hk hj, ← testBit_wideVal_low (wmul (allOnes L) (allOnes L)).1 _ (by omega),
      testBit_wmul_allOnes (by omega), decide_eq_decide]
    omega

/-- Settles O43: the algebra is that of the carryless product, of which the two halves keep every bit. -/
theorem wmulProperties : Obligations.WmulProperties := by
  intro f a b c
  refine ⟨wmul_comm a b, wmul_zero a, wmul_one (limbs_pos f) a, getLsbD_wmul_high (limbs_pos f) a b,
    isProduct_wmul a b, wmul_add a b c, add_wmul a b c, fun d => ?_, fun d => ?_, fun k => wmul_allOnes_limbs k.isLt⟩
  · rw [wmul_spec, testBit_cl_self, Nat.mul_div_cancel_left d (by decide)]
    simp
  · rw [wmul_spec, testBit_cl_self, decide_eq_false (by omega), Bool.false_and]

end Sys2Proof.Proofs
end

section
/-! The degree (R105), the bounds of the two loops (R108, R114), and the contracts of DIVREM (R107, R110) and
INV (R113, R133). -/

namespace Sys2Proof.Proofs

open Sys2Proof Sys2Proof.Machine Sys2Proof.Laws

/-! ### The degree and the bounds of the loops -/

/-- Settles O44: a number with highest bit d lies between 2^d and 2^(d+1). -/
theorem degreeIsTheHighestBit : Obligations.DegreeIsTheHighestBit := by
  refine ⟨deg_zero, fun v d => ⟨fun h => ?_, fun ⟨hd, habove⟩ => ?_⟩⟩
  · have hv : v ≠ 0 := by rintro rfl; rw [deg_zero] at h; omega
    have hlog : v.log2 = d := by rw [deg_of_ne_zero hv] at h; exact_mod_cast h
    exact ⟨hlog ▸ Nat.testBit_log2 hv, fun j hj => testBit_above_log2 (hlog.trans_lt hj)⟩
  · have hlt : deg v < (d + 1 : Nat) := deg_lt_iff.2 (Nat.lt_pow_two_of_testBit v habove)
    have hge : ¬deg v < (d : Nat) := fun h => by simp [Nat.testBit_lt_two_pow (deg_lt_iff.1 h)] at hd
    omega

/-- Below degree e the division has ended, whatever fuel is left (R106). -/
theorem divLoop_of_lt {n e r : Nat} (hr : r < 2 ^ e) (k q : Nat) : divLoop n e k q r = (q, r) := by
  cases k with
  | zero => rfl
  | succ k => rw [divLoop, if_neg (not_le.2 (deg_lt_iff.2 hr))]

/-- Fuel k + j is k passes of the division and then j more. -/
theorem divLoop_add (n e k j q r : Nat) :
    divLoop n e (k + j) q r = divLoop n e j (divLoop n e k q r).1 (divLoop n e k q r).2 := by
  induction k generalizing q r with
  | zero => rw [Nat.zero_add, divLoop]
  | succ k ih =>
    by_cases hdeg : (e : Int) ≤ deg r
    · rw [Nat.succ_add, divLoop, divLoop, if_pos hdeg, if_pos hdeg]
      exact ih _ _
    · have hr : r < 2 ^ e := deg_lt_iff.1 (not_le.1 hdeg)
      simp only [divLoop_of_lt hr]

/-- The Euclidean loop needs no more rounds than the second remainder has bits: each round lowers its degree (R114). -/
theorem euclidLoop_add (j : Nat) {k r1 : Nat} (hr1 : r1 < 2 ^ k) (r0 t0 t1 : Nat) :
    euclidLoop (k + j) r0 r1 t0 t1 = euclidLoop k r0 r1 t0 t1 := by
  induction k generalizing r0 r1 t0 t1 with
  | zero =>
    obtain rfl : r1 = 0 := by simpa using hr1
    cases j <;> rfl
  | succ k ih =>
    rw [Nat.succ_add, euclidLoop, euclidLoop]
    split
    case isTrue => rfl
    case isFalse hne =>
      have hrem : deg (gdivrem r0 r1).2 < deg r1 := (gdivrem_spec hne).2
      have hdeg : deg r1 < (k + 1 : Nat) := deg_lt_iff.2 hr1
      exact ih (deg_lt_iff.1 (by omega)) _ _ _

/-- Settles O45: after m passes the remainder is below degree m, and after m rounds the second remainder is 0. -/
theorem loopBoundsAreEnough : Obligations.LoopBoundsAreEnough := by
  refine fun m n j hn hm => ⟨fun d hd => ?_, fun a ha => euclidLoop_add j ha n 0 1⟩
  obtain ⟨-, hrem, -⟩ := divrem_spec hn hm hd
  rw [divLoop_add]
  exact divLoop_of_lt hrem _ _

/-! ### DIVREM leaves the quotient and the remainder -/

/-- d XOR r is q times n exactly when q and r split d as R107 asks. -/
theorem isProduct_xor_iff {d r q n : Nat} : IsProduct (d ^^^ r) q n ↔ cl q n ^^^ r = d := by
  rw [isProduct_unique, ← Nat.xor_left_inj (z := r), Nat.xor_xor_cancel_right, eq_comm]

/-- A register that holds limbs_L(v) has the value v (R12, R24). -/
theorem value_ofPoly_ofNat {f : FieldSel} {v : Nat} (hv : v < 2 ^ f.degree) :
    Claims.value (Reg.ofPoly (Poly.ofNat f.limbs v)) f.limbs = v := by
  rw [value_ofPoly (limbs_le f), val_ofNat hv]

/-- A command whose meaning is `divremCommand` leaves what R107 and R110 ask. -/
theorem divremResult_of_exec {i : Instr} {f : FieldSel} {w : Word} (hdecode : decode w = .ok i)
    (hexec : ∀ s, exec i s = .next (divremCommand f s)) : Claims.DivremResult i f w := by
  refine ⟨hdecode, fun s => ⟨_, _, hexec s, ?_⟩⟩
  have hn := modulus_ne_zero s.mods f
  have hm := log2_modulus s.mods f
  obtain ⟨hsplit, hr, hq⟩ := divrem_spec hn hm (wideVal_lt (s.a.poly f.limbs) (s.b.poly f.limbs))
  rw [value_ofPoly_ofNat hq, value_ofPoly_ofNat hr]
  refine ⟨isProduct_xor_iff.2 hsplit, zeroFrom_ofPoly (limbs_le f) _, zeroFrom_ofPoly (limbs_le f) _, ?_⟩
  intro q' r' hr' hsplit'
  exact division_unique hn hm hr' hr ((isProduct_xor_iff.1 hsplit').trans hsplit.symm)

/-- Settles O39: each command writes what `divrem` returns, which meets the contract of R107. -/
theorem divremSplitsTheDividend : Obligations.DivremSplitsTheDividend :=
  ⟨divremResult_of_exec (decode_encode .divrem128) fun _ => rfl,
    divremResult_of_exec (decode_encode .divrem192) fun _ => rfl,
    divremResult_of_exec (decode_encode .divrem256) fun _ => rfl⟩

/-- The first L limbs of a register stand for 0 exactly when they are all 0 (R12). -/
theorem value_eq_zero_iff {r : Reg} {L : Nat} : Claims.value r L = 0 ↔ ∀ k < L, r.limb k = 0 := by
  rw [Claims.value, val_eq_zero, Vector.ext_iff]
  simp [Poly.zero]

/-- With A zero below L the dividend is B, the loop makes no pass, and B is the remainder (R110, R111). -/
theorem divremCommand_of_isZero {f : FieldSel} {s : State} (h : Claims.IsZero f.limbs s) :
    divremCommand f s = s.writePair (Poly.zero f.limbs) (s.b.poly f.limbs) := by
  have ha : (s.a.poly f.limbs).val = 0 := value_eq_zero_iff.2 h
  have hdiv : divrem f.degree (s.b.poly f.limbs).val (s.mods.modulus f) = (0, (s.b.poly f.limbs).val) :=
    divLoop_of_lt (val_lt _) _ _
  have hzero : Poly.ofNat f.limbs 0 = Poly.zero f.limbs := val_eq_zero.1 (val_ofNat (Nat.two_pow_pos _))
  simp only [divremCommand, Poly.wideVal, ha, Nat.zero_mul, Nat.zero_add, hdiv, hzero, ofNat_val]

/-- Settles O53: DIVREM writes ZERO_L and the limbs of B. -/
theorem divremOfSmallDividend : Obligations.DivremOfSmallDividend := by
  have hcommand : ∀ (f : FieldSel) (s : State), Claims.IsZero f.limbs s →
      (divremCommand f s).rh = Reg.zero ∧ (divremCommand f s).rl.poly f.limbs = s.b.poly f.limbs := by
    intro f s h
    rw [divremCommand_of_isZero h]
    exact ⟨ofPoly_zero (limbs_le f), poly_ofPoly (limbs_le f) _⟩
  simp only [Obligations.DivremOfSmallDividend, List.mem_cons, Prod.mk.injEq, List.not_mem_nil, or_false]
  rintro i f (⟨rfl, rfl⟩ | ⟨rfl, rfl⟩ | ⟨rfl, rfl⟩) s h
  · exact ⟨_, rfl, hcommand .f128 s h⟩
  · exact ⟨_, rfl, hcommand .f192 s h⟩
  · exact ⟨_, rfl, hcommand .f256 s h⟩

/-! ### INV leaves the inverse -/

/-- Congruence of numbers is divisibility of the difference of their polynomials (R111). -/
theorem congruent_iff {n d r : Nat} : Claims.Congruent n d r ↔ toPoly n ∣ toPoly d - toPoly r := by
  simp only [Claims.Congruent, isProduct_iff, toPoly_xor, CharTwo.sub_eq_add, dvd_iff_exists_eq_mul_left,
    toPoly_surjective.exists]

/-- Two inverses of a below 2^m are equal: v − w is v·(1 − a·w) − w·(1 − a·v) (R113). -/
theorem inverse_unique {m n a v w : Nat} (hn : n ≠ 0) (hm : n.log2 = m) (hv : v < 2 ^ m) (hw : w < 2 ^ m)
    (hav : Claims.Congruent n (cl a v) 1) (haw : Claims.Congruent n (cl a w) 1) : v = w := by
  rw [congruent_iff, toPoly_cl, toPoly_one] at hav haw
  refine eq_of_dvd_sub hn hm hv hw ?_
  have hdiff : toPoly v - toPoly w = toPoly w * (toPoly a * toPoly v - 1) - toPoly v * (toPoly a * toPoly w - 1) := by
    ring
  rw [hdiff]
  exact dvd_sub (dvd_mul_of_dvd_right hav _) (dvd_mul_of_dvd_right haw _)

/-- INV of the zero polynomial clears the results and sets NONE (R133). -/
theorem invCommand_of_zero {f : FieldSel} {s : State} (h : Claims.value s.a f.limbs = 0) :
    invCommand f s = s.writeResults Reg.zero Reg.zero Status.noInverse := by
  have hnone : polyInv f.degree (s.a.poly f.limbs).val (s.mods.modulus f) = none := if_pos h
  simp only [invCommand, hnone]

/-- INV of any other polynomial writes a number below 2^m whose product with A is congruent to 1 (R113, R133). -/
theorem invCommand_of_ne_zero {f : FieldSel} {s : State} (h : Claims.value s.a f.limbs ≠ 0) :
    ∃ v < 2 ^ f.degree, invCommand f s = s.writeElement (Poly.ofNat f.limbs v)
      ∧ Claims.Congruent (s.mods.modulus f) (cl (Claims.value s.a f.limbs) v) 1 := by
  obtain ⟨hm, hirr⟩ := modulus_valid s.mods f
  obtain ⟨hsome, hlt, hdvd⟩ := polyInv_spec hm hirr h (val_lt _)
  have hinv : polyInv f.degree (s.a.poly f.limbs).val (s.mods.modulus f) = some _ := hsome
  refine ⟨_, hlt, by simp only [invCommand, hinv], congruent_iff.2 ?_⟩
  rwa [toPoly_cl, toPoly_one, mul_comm]

/-- A command whose meaning is `invCommand` leaves what R113 and R133 ask. -/
theorem invResult_of_exec {i : Instr} {f : FieldSel} {w : Word} (hdecode : decode w = .ok i)
    (hexec : ∀ s, exec i s = .next (invCommand f s)) : Claims.InvResult i f w := by
  refine ⟨hdecode, fun s => ⟨fun hzero => ?_, fun hne => ?_⟩⟩
  · rw [hexec, invCommand_of_zero (value_eq_zero_iff.2 hzero)]; rfl
  · obtain ⟨v, hv, hcommand, hinv⟩ := invCommand_of_ne_zero (mt value_eq_zero_iff.1 hne)
    refine ⟨Reg.ofPoly (Poly.ofNat f.limbs v), cl (Claims.value s.a f.limbs) v, ?_, ?_, hinv,
      zeroFrom_ofPoly (limbs_le f) _, ?_⟩
    · rw [hexec, hcommand]; rfl
    · rw [value_ofPoly_ofNat hv]
      exact cl_isProduct _ _
    · intro u q hu hq hinv'
      rw [value_ofPoly_ofNat hv]
      exact inverse_unique (modulus_ne_zero s.mods f) (log2_modulus s.mods f) hu hv (isProduct_unique.1 hq ▸ hinv') hinv

/-- Settles O33: each command writes what `poly_inv` returns, which meets the contract of R113. -/
theorem invIsTheInverse : Obligations.InvIsTheInverse :=
  ⟨invResult_of_exec (decode_encode .inv128) fun _ => rfl, invResult_of_exec (decode_encode .inv192) fun _ => rfl,
    invResult_of_exec (decode_encode .inv256) fun _ => rfl⟩

end Sys2Proof.Proofs
end

section
/-! The field operations that read no operand: ZERO (R127), ONE (R128), RANDOM and its draws (R31, R129). -/

namespace Sys2Proof.Proofs

open Sys2Proof Sys2Proof.Machine Sys2Proof.Laws

/-! ### ZERO and ONE -/

/-- A command whose meaning is `zeroCommand` leaves what R127 asks. -/
theorem zeroResult_of_exec {i : Instr} {f : FieldSel} {w : Word} (hdecode : decode w = .ok i)
    (hexec : ∀ s, exec i s = .next (zeroCommand f s)) : Claims.ZeroResult i w := by
  refine ⟨hdecode, fun s => ?_⟩
  rw [hexec, zeroCommand, writeElement_eq, ofPoly_zero (limbs_le f)]
  rfl

/-- Settles O26: each command writes ZERO_L, which is zero in all sixteen words of RL. -/
theorem zeroClearsResults : Obligations.ZeroClearsResults :=
  ⟨zeroResult_of_exec (decode_encode .zero128) fun _ => rfl, zeroResult_of_exec (decode_encode .zero192) fun _ => rfl,
    zeroResult_of_exec (decode_encode .zero256) fun _ => rfl⟩

/-- The words of a register that holds ONE_L (R91). -/
theorem limb_ofPoly_one (f : FieldSel) (k : Nat) :
    (Reg.ofPoly (Poly.one f.limbs)).limb k = if k = f.limbs - 1 then 1 else 0 := by
  have hpos := limbs_pos f
  rw [limb_ofPoly (limbs_le f)]
  split
  case isTrue hk => simp [Poly.one]
  case isFalse hk => rw [if_neg (by omega)]

/-- A command whose meaning is `oneCommand` leaves what R128 asks. -/
theorem oneResult_of_exec {i : Instr} {f : FieldSel} {w : Word} (hdecode : decode w = .ok i)
    (hexec : ∀ s, exec i s = .next (oneCommand f s)) : Claims.OneResult i f w :=
  ⟨hdecode, fun s => ⟨_, hexec s, fun k _ => limb_ofPoly_one f k⟩⟩

/-- Settles O27: each command writes ONE_L. -/
theorem oneWritesLowestLimb : Obligations.OneWritesLowestLimb :=
  ⟨oneResult_of_exec (decode_encode .one128) fun _ => rfl, oneResult_of_exec (decode_encode .one192) fun _ => rfl,
    oneResult_of_exec (decode_encode .one256) fun _ => rfl⟩

/-! ### RANDOM and the port -/

/-- Settles O18: every command draws `drawCount` words and then writes its results, which touches neither the port nor the
count. -/
theorem onlyRandomDraws : Obligations.OnlyRandomDraws := by
  intro i s
  obtain ⟨rh, rl, st, h⟩ := exec_writes i s
  refine ⟨_, drawCount i, h, by simp, by simp, ?_⟩
  split_ifs with h128 h192 h256
  · rw [h128]; rfl
  · rw [h192]; rfl
  · rw [h256]; rfl
  · exact drawCount_eq_zero h128 h192 h256

/-- The k-th of n words drawn is the k-th word to come (R31, R129). -/
theorem drawWords_getD (s : State) {n k : Nat} (h : k < n) : (State.drawWords n s).getD k 0 = Claims.comingWord s k := by
  rw [List.getD_eq_getElem _ _ (by simpa using h), drawWords_getElem n s k h, nextWord_afterDraws]
  rfl

/-- What is to come after n draws is what was to come, n words further on (R31). -/
theorem comingWord_of_drawn {s t : State} {n : Nat} (hport : t.portWords = s.portWords.drop n)
    (hdrawn : t.drawn = s.drawn + n) (k : Nat) : Claims.comingWord t k = Claims.comingWord s (n + k) := by
  rw [Claims.comingWord, hport, hdrawn, List.getElem?_drop, Nat.add_assoc]
  rfl

/-- RANDOM.f writes the first L words to come and takes them from the port; a word past the port's list is the free word
of its draw (R129; log 3). -/
theorem randomCommand_eq (f : FieldSel) (s : State) :
    randomCommand f s = { Claims.written s Reg.zero
        (Reg.ofPoly (Vector.ofFn fun k : Fin f.limbs => Claims.comingWord s k)) false false false with
      portWords := s.portWords.drop f.limbs, drawn := s.drawn + f.limbs } := by
  have hwords : ∀ k : Fin f.limbs, (State.drawWords f.limbs s).getD k 0 = Claims.comingWord s k := fun k =>
    drawWords_getD s k.isLt
  simp only [randomCommand, hwords, afterDraws_eq]
  rfl

/-- A command whose meaning is `randomCommand` leaves what R129 asks. -/
theorem randomResult_of_exec {i : Instr} {f : FieldSel} {w : Word} (hdecode : decode w = .ok i)
    (hexec : ∀ s, exec i s = .next (randomCommand f s)) : Claims.RandomResult i f w := by
  refine ⟨hdecode, fun s => ⟨_, by rw [hexec, randomCommand_eq], fun k hk => ?_, zeroFrom_ofPoly (limbs_le f) _⟩⟩
  rw [limb_ofPoly (limbs_le f), dif_pos hk, Vector.getElem_ofFn]

/-- Settles O28: each command draws L words and writes them in the order of drawing. -/
theorem randomFillsLimbsInDrawOrder : Obligations.RandomFillsLimbsInDrawOrder :=
  ⟨randomResult_of_exec (decode_encode .random128) fun _ => rfl,
    randomResult_of_exec (decode_encode .random192) fun _ => rfl,
    randomResult_of_exec (decode_encode .random256) fun _ => rfl⟩

theorem randomResult_of_mem {i : Instr} {f : FieldSel} (h : (i, f) ∈ Claims.randomCommands) :
    Claims.RandomResult i f (encode i) := by
  obtain ⟨h128, h192, h256⟩ := randomFillsLimbsInDrawOrder
  simp only [Claims.randomCommands, List.mem_cons, Prod.mk.injEq, List.not_mem_nil, or_false] at h
  obtain ⟨rfl, rfl⟩ | ⟨rfl, rfl⟩ | ⟨rfl, rfl⟩ := h
  · exact h128
  · exact h192
  · exact h256

/-- Settles O29: the words to come after the first command are those to come before it, without the ones it drew. -/
theorem randomContinuesTheStream : Obligations.RandomContinuesTheStream := by
  intro i f j g hi hj s
  obtain ⟨-, hfirst⟩ := randomResult_of_mem hi
  obtain ⟨-, hsecond⟩ := randomResult_of_mem hj
  obtain ⟨rl, ht, hlimbs, hzero⟩ := hfirst s
  obtain ⟨rl', hu, hlimbs', hzero'⟩ := hsecond _
  exact ⟨_, _, ht, hu, rfl, List.drop_drop, hlimbs, hzero,
    fun k hk => (hlimbs' k hk).trans (comingWord_of_drawn rfl rfl k), hzero'⟩

end Sys2Proof.Proofs
end

section
/-! ADD and SUB (R130, R131, R137) and the predicates (R134 to R136). -/

namespace Sys2Proof.Proofs

open Sys2Proof Sys2Proof.Machine Sys2Proof.Laws

/-! ### The sum -/

/-- A command whose meaning is `addCommand` leaves what R130 and R131 ask. -/
theorem sumResult_of_exec {i : Instr} {f : FieldSel} {w : Word} (hdecode : decode w = .ok i)
    (hexec : ∀ s, exec i s = .next (addCommand f s)) : Claims.SumResult i f w := by
  refine ⟨hdecode, fun s => ⟨_, hexec s, fun k _ => ?_⟩⟩
  rw [limb_ofPoly (limbs_le f)]
  simp [Poly.add]

/-- Settles O30: each command writes padd of the operands, limb by limb (R92). -/
theorem addWritesXorOfLimbs : Obligations.AddWritesXorOfLimbs :=
  ⟨sumResult_of_exec (decode_encode .add128) fun _ => rfl, sumResult_of_exec (decode_encode .add192) fun _ => rfl,
    sumResult_of_exec (decode_encode .add256) fun _ => rfl⟩

/-- Settles O31: SUB has the meaning of ADD, since −1 is 1 over GF(2). -/
theorem subWritesXorOfLimbs : Obligations.SubWritesXorOfLimbs :=
  ⟨sumResult_of_exec (decode_encode .sub128) fun _ => rfl, sumResult_of_exec (decode_encode .sub192) fun _ => rfl,
    sumResult_of_exec (decode_encode .sub256) fun _ => rfl, fun _ => ⟨rfl, rfl, rfl⟩⟩

/-- A register with the words above L zero is determined by the value of its first L limbs (R12, R24). -/
theorem eq_iff_value_eq {L : Nat} {x y : Reg} (hx : Claims.ZeroFrom L x) (hy : Claims.ZeroFrom L y) :
    x = y ↔ Claims.value x L = Claims.value y L := by
  refine ⟨fun h => by rw [h], fun h => reg_ext fun k hk => ?_⟩
  by_cases hkL : k < L
  · rw [← poly_getElem x L k hkL, val_injective h, poly_getElem]
  · rw [hx k (by omega) hk, hy k (by omega) hk]

theorem zeroFrom_zero (L : Nat) : Claims.ZeroFrom L Reg.zero := fun k _ _ => limb_zero k

theorem value_zero (L : Nat) : Claims.value Reg.zero L = 0 := value_eq_zero_iff.2 fun k _ => limb_zero k

/-- The RL that ADD.f leaves when A holds x and B holds y. -/
def sumReg (f : FieldSel) (x y : Reg) : Reg := Reg.ofPoly (Poly.add (x.poly f.limbs) (y.poly f.limbs))

theorem zeroFrom_sumReg (f : FieldSel) (x y : Reg) : Claims.ZeroFrom f.limbs (sumReg f x y) :=
  zeroFrom_ofPoly (limbs_le f) _

/-- The sum is XOR of the values (R92). -/
@[simp] theorem value_sumReg (f : FieldSel) (x y : Reg) :
    Claims.value (sumReg f x y) f.limbs = Claims.value x f.limbs ^^^ Claims.value y f.limbs := by
  rw [sumReg, value_ofPoly (limbs_le f), val_add]
  rfl

theorem sumReg_eq_iff {f : FieldSel} {x y x' y' : Reg} : sumReg f x y = sumReg f x' y' ↔
    Claims.value x f.limbs ^^^ Claims.value y f.limbs = Claims.value x' f.limbs ^^^ Claims.value y' f.limbs := by
  rw [eq_iff_value_eq (zeroFrom_sumReg f x y) (zeroFrom_sumReg f x' y'), value_sumReg, value_sumReg]

theorem sumReg_comm (f : FieldSel) (x y : Reg) : sumReg f x y = sumReg f y x :=
  sumReg_eq_iff.2 (Nat.xor_comm _ _)

theorem sumReg_assoc (f : FieldSel) (x y z : Reg) : sumReg f (sumReg f x y) z = sumReg f x (sumReg f y z) :=
  sumReg_eq_iff.2 (by simp only [value_sumReg, Nat.xor_assoc])

/-- The sum is zero exactly when the operands agree below L (R92). -/
theorem sumReg_eq_zero_iff {f : FieldSel} {x y : Reg} : sumReg f x y = Reg.zero ↔ x.poly f.limbs = y.poly f.limbs := by
  rw [eq_iff_value_eq (zeroFrom_sumReg f x y) (zeroFrom_zero f.limbs), value_sumReg, value_zero, Nat.xor_eq_zero_iff]
  exact ⟨val_injective, congrArg Poly.val⟩

theorem poly_sumReg_zero (f : FieldSel) (x : Reg) : (sumReg f x Reg.zero).poly f.limbs = x.poly f.limbs :=
  val_injective ((value_sumReg f x Reg.zero).trans (by rw [value_zero, Nat.xor_zero]; rfl))

/-- What a command with a known meaning leaves in RL. -/
theorem rlAfter_of_exec {i : Instr} {command : State → State} (hexec : ∀ s, exec i s = .next (command s)) (s : State)
    (x y : Reg) : Claims.rlAfter i s x y = some (command { s with a := x, b := y }).rl := by
  rw [Claims.rlAfter, hexec]

theorem rlAfter_add {i : Instr} {f : FieldSel} (hexec : ∀ s, exec i s = .next (addCommand f s)) (s : State) (x y : Reg) :
    Claims.rlAfter i s x y = some (sumReg f x y) :=
  rlAfter_of_exec hexec s x y

/-- Settles O50: the sums are those of `sumReg`, whose laws are those of XOR on the values. -/
theorem additionIsAGroup : Obligations.AdditionIsAGroup := by
  intro i i' f hmem s x y z
  have hexec : (∀ s, exec i s = .next (addCommand f s)) ∧ ∀ s, exec i' s = .next (addCommand f s) := by
    simp only [List.mem_cons, Prod.mk.injEq, List.not_mem_nil, or_false] at hmem
    obtain ⟨rfl, rfl, rfl⟩ | ⟨rfl, rfl, rfl⟩ | ⟨rfl, rfl, rfl⟩ := hmem <;> exact ⟨fun _ => rfl, fun _ => rfl⟩
  obtain ⟨hadd, hsub⟩ := hexec
  simp only [rlAfter_add hadd, rlAfter_add hsub, Option.some.injEq]
  exact ⟨_, _, rfl, sumReg_comm f y x, rfl, rfl, sumReg_assoc f x y z, sumReg_eq_zero_iff.2 rfl, _, rfl,
    poly_sumReg_zero f x⟩

/-! ### The predicates -/

/-- peq compares limb by limb, which is equality of polynomials (R97). -/
@[simp] theorem polyEq_iff {L : Nat} {a b : Poly L} : Poly.eq a b = true ↔ a = b := by
  simp [Poly.eq, Vector.ext_iff, Fin.forall_iff]

/-- A command that writes the predicate "p equals q" leaves what R134 to R136 ask of a property that says so. -/
theorem predicateResult_of_exec {i : Instr} {w : Word} {P : State → Prop} {L : Nat} {p q : State → Poly L}
    (hdecode : decode w = .ok i) (hexec : ∀ s, exec i s = .next (s.writePredicate (Poly.eq (p s) (q s))))
    (hP : ∀ s, p s = q s ↔ P s) : Claims.PredicateResult i w P :=
  ⟨hdecode, fun s => ⟨_, hexec s, polyEq_iff.trans (hP s)⟩⟩

theorem poly_eq_zero_iff (L : Nat) (s : State) : s.a.poly L = Poly.zero L ↔ Claims.IsZero L s :=
  val_eq_zero.symm.trans value_eq_zero_iff

/-- ONE_L is 1 in limb L−1 and 0 in the limbs before it (R91). -/
theorem poly_eq_one_iff {L : Nat} (hL : 0 < L) (s : State) : s.a.poly L = Poly.one L ↔ Claims.IsOne L s := by
  have hlimbs : s.a.poly L = Poly.one L ↔ ∀ k < L, s.a.limb k = if k = L - 1 then 1 else 0 := by
    simp [Vector.ext_iff, Poly.one]
  rw [hlimbs]
  constructor
  · intro h
    exact ⟨by simpa using h (L - 1) (by omega), fun k hk => by simpa [hk.ne] using h k (by omega)⟩
  · rintro ⟨hlast, hrest⟩ k hk
    split
    case isTrue hk' => rw [hk', hlast]
    case isFalse hk' => exact hrest k (by omega)

theorem poly_eq_poly_iff (L : Nat) (s : State) : s.a.poly L = s.b.poly L ↔ Claims.SameLimbs L s := by
  simp [Vector.ext_iff, Claims.SameLimbs]

/-- Settles O35: the comparison is with ZERO_L. -/
theorem iszeroTestsItsLimbs : Obligations.IszeroTestsItsLimbs :=
  ⟨predicateResult_of_exec (decode_encode .iszero128) (fun _ => rfl) (poly_eq_zero_iff 8),
    predicateResult_of_exec (decode_encode .iszero192) (fun _ => rfl) (poly_eq_zero_iff 12),
    predicateResult_of_exec (decode_encode .iszero256) (fun _ => rfl) (poly_eq_zero_iff 16)⟩

/-- Settles O36: the comparison is with ONE_L. -/
theorem isoneTestsItsLimbs : Obligations.IsoneTestsItsLimbs :=
  ⟨predicateResult_of_exec (decode_encode .isone128) (fun _ => rfl) (poly_eq_one_iff (by decide)),
    predicateResult_of_exec (decode_encode .isone192) (fun _ => rfl) (poly_eq_one_iff (by decide)),
    predicateResult_of_exec (decode_encode .isone256) (fun _ => rfl) (poly_eq_one_iff (by decide))⟩

/-- Settles O37: the comparison is of A with B. -/
theorem eqComparesItsLimbs : Obligations.EqComparesItsLimbs :=
  ⟨predicateResult_of_exec (decode_encode .eq128) (fun _ => rfl) (poly_eq_poly_iff 8),
    predicateResult_of_exec (decode_encode .eq192) (fun _ => rfl) (poly_eq_poly_iff 12),
    predicateResult_of_exec (decode_encode .eq256) (fun _ => rfl) (poly_eq_poly_iff 16)⟩

/-- Settles O54: EQ compares the polynomials, and their sum is zero exactly when they are equal. -/
theorem eqIsAddGivesZero : Obligations.EqIsAddGivesZero := by
  have hcommand : ∀ (f : FieldSel) (s : State),
      (eqCommand f s).status.T = true ↔ (addCommand f s).rl = Reg.zero := fun f s =>
    polyEq_iff.trans sumReg_eq_zero_iff.symm
  simp only [Obligations.EqIsAddGivesZero, List.mem_cons, Prod.mk.injEq, List.not_mem_nil, or_false]
  rintro e a (⟨rfl, rfl⟩ | ⟨rfl, rfl⟩ | ⟨rfl, rfl⟩) s
  · exact ⟨_, _, rfl, rfl, hcommand .f128 s⟩
  · exact ⟨_, _, rfl, rfl, hcommand .f192 s⟩
  · exact ⟨_, _, rfl, rfl, hcommand .f256 s⟩

end Sys2Proof.Proofs
end

section
/-! MUL and INV as the field's product and inverse (R132, R133, R138): the elements of the field are residues of polynomials
modulo MOD(f), and the laws of the commands are those of that ring. -/

namespace Sys2Proof.Proofs

open Sys2Proof Sys2Proof.Machine Sys2Proof.Laws Polynomial

/-! ### The product -/

/-- The RL that MUL.f leaves when A holds x and B holds y. -/
def productReg (c : Moduli) (f : FieldSel) (x y : Reg) : Reg :=
  Reg.ofPoly (Poly.ofNat f.limbs
    (reduce f.degree (cl (Claims.value x f.limbs) (Claims.value y f.limbs)) (c.modulus f)))

theorem zeroFrom_productReg (c : Moduli) (f : FieldSel) (x y : Reg) : Claims.ZeroFrom f.limbs (productReg c f x y) :=
  zeroFrom_ofPoly (limbs_le f) _

/-- MUL.f writes the reduction of the carryless product (R132). -/
theorem mulCommand_eq (f : FieldSel) (s : State) :
    mulCommand f s = Claims.written s Reg.zero (productReg s.mods f s.a s.b) false false false := by
  simp only [mulCommand, wmul_spec]
  rfl

/-- The product of two elements stays below x^(2m), where the division is exact (R108). -/
theorem cl_value_lt (f : FieldSel) (x y : Reg) :
    cl (Claims.value x f.limbs) (Claims.value y f.limbs) < 2 ^ (2 * f.degree) := by
  rw [Claims.value, Claims.value, ← wmul_spec]
  exact wideVal_lt _ _

theorem value_productReg (c : Moduli) (f : FieldSel) (x y : Reg) : Claims.value (productReg c f x y) f.limbs
    = reduce f.degree (cl (Claims.value x f.limbs) (Claims.value y f.limbs)) (c.modulus f) := by
  obtain ⟨-, hlt, -⟩ := divrem_spec (modulus_ne_zero c f) (log2_modulus c f) (cl_value_lt f x y)
  exact value_ofPoly_ofNat hlt

theorem congruent_productReg (c : Moduli) (f : FieldSel) (x y : Reg) : Claims.Congruent (c.modulus f)
    (cl (Claims.value x f.limbs) (Claims.value y f.limbs)) (Claims.value (productReg c f x y) f.limbs) := by
  rw [value_productReg, congruent_iff]
  exact dvd_reduce (modulus_ne_zero c f) (log2_modulus c f) (cl_value_lt f x y)

/-- A command whose meaning is `mulCommand` leaves what R132 asks. -/
theorem mulResult_of_exec {i : Instr} {f : FieldSel} {w : Word} (hdecode : decode w = .ok i)
    (hexec : ∀ s, exec i s = .next (mulCommand f s)) : Claims.MulResult i f w :=
  ⟨hdecode, fun s => ⟨_, _, by rw [hexec, mulCommand_eq], cl_isProduct _ _, congruent_productReg s.mods f s.a s.b,
    zeroFrom_productReg s.mods f s.a s.b⟩⟩

/-- Settles O32: each command writes a remainder of the division, which is congruent to the product. -/
theorem mulIsProductModuloTheField : Obligations.MulIsProductModuloTheField :=
  ⟨mulResult_of_exec (decode_encode .mul128) fun _ => rfl, mulResult_of_exec (decode_encode .mul192) fun _ => rfl,
    mulResult_of_exec (decode_encode .mul256) fun _ => rfl⟩

/-- Settles O49: the copies hand DIVREM the pair that WMUL left, which is the pair that MUL divides. -/
theorem mulIsWmulThenDivrem : Obligations.MulIsWmulThenDivrem := by
  have hcommand : ∀ (f : FieldSel) (s : State),
      (divremCommand f { wmulCommand f s with a := (wmulCommand f s).rh, b := (wmulCommand f s).rl }).rl
        = (mulCommand f s).rl := fun f s => by
    simp [divremCommand, wmulCommand, mulCommand, poly_ofPoly (limbs_le f)]
  simp only [Obligations.MulIsWmulThenDivrem, List.mem_cons, Prod.mk.injEq, List.not_mem_nil, or_false]
  rintro m w d f (⟨rfl, rfl, rfl, rfl⟩ | ⟨rfl, rfl, rfl, rfl⟩ | ⟨rfl, rfl, rfl, rfl⟩) s
  · exact ⟨_, _, _, rfl, rfl, rfl, hcommand .f128 s⟩
  · exact ⟨_, _, _, rfl, rfl, rfl, hcommand .f192 s⟩
  · exact ⟨_, _, _, rfl, rfl, rfl, hcommand .f256 s⟩

/-! ### Registers as elements of the field -/

/-- The element that the first L limbs of a register stand for: the residue of their polynomial modulo MOD(f). -/
noncomputable def element (c : Moduli) (f : FieldSel) (r : Reg) : AdjoinRoot (toPoly (c.modulus f)) :=
  AdjoinRoot.mk _ (toPoly (Claims.value r f.limbs))

section
variable {c : Moduli} {f : FieldSel}

/-- Each element has one pattern of L limbs (R125). -/
theorem element_inj {x y : Reg} : element c f x = element c f y ↔ x.poly f.limbs = y.poly f.limbs := by
  refine ⟨fun h => val_injective ?_, fun h => by rw [element, element, Claims.value, Claims.value, h]⟩
  exact eq_of_dvd_sub (modulus_ne_zero c f) (log2_modulus c f) (val_lt _) (val_lt _) (AdjoinRoot.mk_eq_mk.1 h)

theorem element_of_poly_zero {z : Reg} (h : z.poly f.limbs = Poly.zero f.limbs) : element c f z = 0 := by
  rw [element, Claims.value, h, val_zero, toPoly_zero, map_zero]

theorem element_of_poly_one {one : Reg} (h : one.poly f.limbs = Poly.one f.limbs) : element c f one = 1 := by
  rw [element, Claims.value, h, val_one (limbs_pos f), toPoly_one, map_one]

theorem element_eq_zero_iff {x : Reg} : element c f x = 0 ↔ x.poly f.limbs = Poly.zero f.limbs := by
  have hzero := poly_ofPoly (limbs_le f) (Poly.zero f.limbs)
  rw [← element_of_poly_zero hzero, element_inj, hzero]

theorem element_eq_one_iff {x : Reg} : element c f x = 1 ↔ x.poly f.limbs = Poly.one f.limbs := by
  have hone := poly_ofPoly (limbs_le f) (Poly.one f.limbs)
  rw [← element_of_poly_one hone, element_inj, hone]

@[simp] theorem element_sumReg (x y : Reg) : element c f (sumReg f x y) = element c f x + element c f y := by
  rw [element, value_sumReg, toPoly_xor, map_add]
  rfl

@[simp] theorem element_productReg (x y : Reg) :
    element c f (productReg c f x y) = element c f x * element c f y := by
  have h := congruent_iff.1 (congruent_productReg c f x y)
  rw [element, ← AdjoinRoot.mk_eq_mk.2 h, toPoly_cl, map_mul]
  rfl

/-- Registers with zero words above L that stand for one element are equal (R24, R125). -/
theorem eq_of_element_eq {x y : Reg} (hx : Claims.ZeroFrom f.limbs x) (hy : Claims.ZeroFrom f.limbs y)
    (h : element c f x = element c f y) : x = y :=
  (eq_iff_value_eq hx hy).2 (congrArg Poly.val (element_inj.1 h))

/-! ### The laws of the product -/

theorem productReg_comm (x y : Reg) : productReg c f x y = productReg c f y x :=
  eq_of_element_eq (c := c) (zeroFrom_productReg c f x y) (zeroFrom_productReg c f y x) (by
    rw [element_productReg, element_productReg, mul_comm])

theorem productReg_assoc (x y z : Reg) :
    productReg c f (productReg c f x y) z = productReg c f x (productReg c f y z) :=
  eq_of_element_eq (c := c) (zeroFrom_productReg c f _ z) (zeroFrom_productReg c f x _) (by
    simp only [element_productReg, mul_assoc])

theorem productReg_sumReg (x y z : Reg) :
    productReg c f x (sumReg f y z) = sumReg f (productReg c f x y) (productReg c f x z) :=
  eq_of_element_eq (c := c) (zeroFrom_productReg c f x _) (zeroFrom_sumReg f _ _) (by
    simp only [element_productReg, element_sumReg, mul_add])

theorem productReg_of_poly_zero (x : Reg) {z : Reg} (h : z.poly f.limbs = Poly.zero f.limbs) :
    productReg c f x z = Reg.zero :=
  eq_of_element_eq (c := c) (zeroFrom_productReg c f x z) (zeroFrom_zero f.limbs) (by
    rw [element_productReg, element_of_poly_zero h, mul_zero,
      element_of_poly_zero (val_eq_zero.1 (value_zero f.limbs))])

theorem poly_productReg_one (x : Reg) {one : Reg} (h : one.poly f.limbs = Poly.one f.limbs) :
    (productReg c f x one).poly f.limbs = x.poly f.limbs := by
  rw [← element_inj (c := c), element_productReg, element_of_poly_one h, mul_one]

end

theorem rlAfter_mul {i : Instr} {f : FieldSel} (hexec : ∀ s, exec i s = .next (mulCommand f s)) (s : State) (x y : Reg) :
    Claims.rlAfter i s x y = some (productReg s.mods f x y) := by
  rw [rlAfter_of_exec hexec, mulCommand_eq]
  rfl

/-- Settles O52: the product with zero is zero in the field, and the product is commutative. -/
theorem mulWithZeroIsZero : Obligations.MulWithZeroIsZero := by
  intro m f hmem s x z hz
  have hexec : ∀ s, exec m s = .next (mulCommand f s) := by
    simp only [List.mem_cons, Prod.mk.injEq, List.not_mem_nil, or_false] at hmem
    obtain ⟨rfl, rfl⟩ | ⟨rfl, rfl⟩ | ⟨rfl, rfl⟩ := hmem <;> exact fun _ => rfl
  rw [rlAfter_mul hexec, rlAfter_mul hexec, productReg_comm z x, productReg_of_poly_zero x hz]
  exact ⟨rfl, rfl⟩

/-! ### The inverse -/

@[simp] theorem invCommand_mods (f : FieldSel) (s : State) : (invCommand f s).mods = s.mods := by
  unfold invCommand
  split <;> rfl

/-- INV.f of a non-zero element leaves NONE 0 and, in RL, an element whose product with it is 1 (R133). -/
theorem invCommand_of_poly_ne_zero {c : Moduli} {f : FieldSel} {s : State} (hmods : s.mods = c)
    (h : s.a.poly f.limbs ≠ Poly.zero f.limbs) :
    (invCommand f s).status.NONE = false ∧ element c f s.a * element c f (invCommand f s).rl = 1 := by
  subst hmods
  obtain ⟨v, hv, hcommand, hinv⟩ := invCommand_of_ne_zero (mt val_eq_zero.1 h)
  rw [hcommand]
  refine ⟨rfl, ?_⟩
  rw [writeElement_eq, writeResults_rl, element, element, value_ofPoly_ofNat hv, ← map_mul, ← toPoly_cl,
    AdjoinRoot.mk_eq_mk.2 (congruent_iff.1 hinv), toPoly_one, map_one]

theorem invCommand_NONE_iff {f : FieldSel} {s : State} :
    (invCommand f s).status.NONE = true ↔ s.a.poly f.limbs = Poly.zero f.limbs := by
  constructor
  · intro hnone
    by_contra h
    obtain ⟨hclear, -⟩ := invCommand_of_poly_ne_zero rfl h
    exact Bool.false_ne_true (hclear.symm.trans hnone)
  · intro h
    rw [invCommand_of_zero (val_eq_zero.2 h)]
    rfl

/-- The product of a non-zero element with what INV.f leaves in RL is ONE_L (R138). -/
theorem poly_productReg_invCommand {f : FieldSel} {s : State} (h : s.a.poly f.limbs ≠ Poly.zero f.limbs) :
    (productReg s.mods f s.a (invCommand f s).rl).poly f.limbs = Poly.one f.limbs := by
  obtain ⟨-, hinv⟩ := invCommand_of_poly_ne_zero rfl h
  rw [← element_eq_one_iff (c := s.mods), element_productReg, hinv]

/-- The inverse of an inverse: where a·t = 1 and t·u = 1, u is a; and t is not zero, since 0 = 1 would make a zero. -/
theorem invCommand_invCommand {f : FieldSel} {s t : State} (ht : invCommand f s = t)
    (h : s.a.poly f.limbs ≠ Poly.zero f.limbs) :
    (invCommand f { t with a := t.rl }).rl.poly f.limbs = s.a.poly f.limbs
      ∧ (invCommand f { t with a := t.rl }).status.NONE = false := by
  have hmods : t.mods = s.mods := ht ▸ invCommand_mods f s
  obtain ⟨-, hat⟩ := invCommand_of_poly_ne_zero rfl h
  rw [ht] at hat
  have htne : t.rl.poly f.limbs ≠ Poly.zero f.limbs := by
    intro hzero
    rw [element_of_poly_zero hzero, mul_zero] at hat
    exact h (element_eq_zero_iff.1 (eq_zero_of_zero_eq_one hat _))
  obtain ⟨hnone, htu⟩ := invCommand_of_poly_ne_zero (s := { t with a := t.rl }) hmods htne
  exact ⟨(element_inj.1 (left_inv_eq_right_inv hat htu)).symm, hnone⟩

/-- Settles O34: an element has one inverse of its inverse, and that is itself. -/
theorem invIsAnInvolution : Obligations.InvIsAnInvolution := by
  intro i f hmem s hne
  have hexec : ∀ s, exec i s = .next (invCommand f s) := by
    simp only [List.mem_cons, Prod.mk.injEq, List.not_mem_nil, or_false] at hmem
    obtain ⟨rfl, rfl⟩ | ⟨rfl, rfl⟩ | ⟨rfl, rfl⟩ := hmem <;> exact fun _ => rfl
  exact ⟨_, _, hexec s, hexec _, invCommand_invCommand rfl (mt (poly_eq_zero_iff f.limbs s).1 hne)⟩

/-- Settles O51: RL holds `productReg` after MUL.f and `sumReg` after ADD.f, whose laws are those of the ring of residues,
and INV.f leaves an inverse in that ring. -/
theorem multiplicationObeysTheFieldLaws : Obligations.MultiplicationObeysTheFieldLaws := by
  intro m a v f hmem s x y z one hone
  have hexec : (∀ s, exec m s = .next (mulCommand f s)) ∧ (∀ s, exec a s = .next (addCommand f s))
      ∧ ∀ s, exec v s = .next (invCommand f s) := by
    simp only [List.mem_cons, Prod.mk.injEq, List.not_mem_nil, or_false] at hmem
    obtain ⟨rfl, rfl, rfl, rfl⟩ | ⟨rfl, rfl, rfl, rfl⟩ | ⟨rfl, rfl, rfl, rfl⟩ := hmem <;>
      exact ⟨fun _ => rfl, fun _ => rfl, fun _ => rfl⟩
  obtain ⟨hmul, hadd, hinv⟩ := hexec
  simp only [rlAfter_mul hmul, rlAfter_add hadd, Option.some.injEq]
  exact ⟨_, _, _, _, rfl, productReg_comm y x, rfl, rfl, rfl, productReg_sumReg x y z, productReg_assoc x y z,
    ⟨_, rfl, poly_productReg_one x hone⟩, _, hinv _, invCommand_NONE_iff,
    fun hx => ⟨_, rfl, poly_productReg_invCommand hx⟩⟩

end Sys2Proof.Proofs
end

section
/-! Exceptions: the engine raises none (R150), and what the flags of STATUS say in its place (R151, R152, R154). -/

namespace Sys2Proof.Proofs

open Sys2Proof Sys2Proof.Machine Sys2Proof.Laws

/-! ### No step stops -/

/-- A write answers a next state: during reset the same one, outside it that of RegWrite (R44, R170). -/
theorem perform_write_next (s : State) (addr : Address) (v : Word) : ∃ t, s.perform (.write addr v) = .next t := by
  rw [State.perform]
  split
  · exact ⟨s, rfl⟩
  · exact regWrite_next s addr v

/-- Every event answers a next state (R43, R44, R170); a writeBack is the write of the word read last (R72). -/
theorem perform_next (s : State) (e : HostEvent) : ∃ t, s.perform e = .next t := by
  cases e with
  | write addr v => exact perform_write_next s addr v
  | writeBack addr => exact perform_write_next s addr s.lastAnswer
  | read addr => exact ⟨_, rfl⟩
  | resetAssert => exact ⟨_, rfl⟩
  | resetRelease => exact ⟨_, rfl⟩

/-- Settles O16: a step performs an event or changes nothing, and a command draws words and writes results. -/
theorem noStepStops : Obligations.NoStepStops := by
  refine ⟨fun s => ?_, fun i s => ?_⟩
  · obtain ⟨-, hidle⟩ | ⟨e, rest, -, hperform⟩ := step_cases s
    · exact ⟨s, hidle⟩
    · rw [hperform]
      exact perform_next _ e
  · obtain ⟨_, _, _, h⟩ := exec_writes i s
    exact ⟨_, h⟩

/-! ### Where a flag comes from -/

/-- t holds cleared results and the flags st. -/
def ClearedWith (st : Status) (t : State) : Prop := t.rh = Reg.zero ∧ t.rl = Reg.zero ∧ t.status = st

/-- INV.f leaves every flag 0, or cleared results with NONE (R133). -/
theorem invCommand_flags (f : FieldSel) (s : State) :
    (invCommand f s).status = Status.clear ∨ ClearedWith Status.noInverse (invCommand f s) := by
  unfold invCommand
  split
  · exact .inr ⟨rfl, rfl, rfl⟩
  · exact .inl rfl

/-- The flags a command leaves: all 0, or cleared results with NONE from INV.f, or with T as the predicate says from
ISZERO.f, ISONE.f and EQ.f (R126, R133 to R136). -/
theorem exec_flags_cases {i : Instr} {s t : State} (h : exec i s = .next t) :
    t.status = Status.clear
      ∨ (i ∈ [Instr.inv128, .inv192, .inv256] ∧ ClearedWith Status.noInverse t)
      ∨ (i ∈ [Instr.iszero128, .iszero192, .iszero256, .isone128, .isone192, .isone256, .eq128, .eq192, .eq256]
          ∧ ∃ p, ClearedWith (Status.ofPredicate p) t) := by
  cases i
  case inv128 | inv192 | inv256 =>
    cases Host.Outcome.next.inj h
    exact (invCommand_flags _ s).imp_right fun hnone => .inl ⟨by simp, hnone⟩
  case iszero128 | iszero192 | iszero256 | isone128 | isone192 | isone256 | eq128 | eq192 | eq256 =>
    cases Host.Outcome.next.inj h
    exact .inr (.inr ⟨by simp, _, rfl, rfl, rfl⟩)
  all_goals
    cases Host.Outcome.next.inj h
    exact .inl rfl

/-! ### The flags stay sound -/

theorem flagsSound_of_clearedWith {st : Status} {t : State} (hst : st.AtMostOne) (h : ClearedWith st t) :
    t.FlagsSound := by
  obtain ⟨hrh, hrl, rfl⟩ := h
  exact ⟨hst, fun _ => ⟨hrh, hrl⟩⟩

/-- A command leaves sound flags, whatever they were before it (R154). -/
theorem exec_flagsSound {i : Instr} {s t : State} (h : exec i s = .next t) : t.FlagsSound := by
  obtain hclear | ⟨-, hnone⟩ | ⟨-, p, hpredicate⟩ := exec_flags_cases h
  · exact flagsSound_of_clear hclear
  · exact flagsSound_of_clearedWith (by simp [Status.AtMostOne, Status.noInverse]) hnone
  · exact flagsSound_of_clearedWith (by simp [Status.AtMostOne, Status.ofPredicate]) hpredicate

/-- So does a write of any word to CMD: a reserved one leaves cleared results with ILL (R68). -/
theorem command_flagsSound {s t : State} {c : Word} (h : s.command c = .next t) : t.FlagsSound := by
  obtain ⟨i, -, hexec⟩ | ⟨e, -, hreserved⟩ := command_cases s c
  · exact exec_flagsSound (hexec ▸ h)
  · cases hreserved.symm.trans h
    exact flagsSound_of_clearedWith (st := Status.reservedWord) (by simp [Status.AtMostOne, Status.reservedWord])
      ⟨rfl, rfl, rfl⟩

/-- A write to the word address of CMD is a command (R25, R44). -/
theorem regWrite_cmd (s : State) (c : Word) : s.regWrite 0x40 c = s.command c := if_pos rfl

/-- A write runs a command, or changes A or B at most (R44). -/
theorem regWrite_keeps_flagsSound {s t : State} {addr : Address} {v : Word} (hs : s.FlagsSound)
    (h : s.regWrite addr v = .next t) : t.FlagsSound := by
  obtain ⟨-, rfl⟩ | ⟨rfl, -⟩ := regWrite_next_cases h
  · obtain ⟨a, b, hstore⟩ := regStore_eq_with_operands s addr v
    rw [hstore]
    exact hs
  · exact command_flagsSound (regWrite_cmd s v ▸ h)

theorem step_keeps_flagsSound {s t : State} (hs : s.FlagsSound) (h : step s = .next t) : t.FlagsSound := by
  obtain ⟨_, _, _, rfl⟩ | ⟨rest, -, -, rfl⟩ | ⟨e, rest, addr, v, -, -, -, hwrite⟩ := step_next_cases h
  · exact hs
  · exact flagsSound_of_clear rfl
  · exact regWrite_keeps_flagsSound (s := { s with events := rest }) hs hwrite

/-- NONE comes from INV.f alone, T from a predicate alone, ILL from no legal command (R151, R152, R154). -/
theorem exec_flag_origin {i : Instr} {s t : State} (h : exec i s = .next t) :
    (t.status.NONE = true → i ∈ [Instr.inv128, .inv192, .inv256])
      ∧ (t.status.T = true → i ∈ [Instr.iszero128, .iszero192, .iszero256, .isone128, .isone192, .isone256, .eq128,
          .eq192, .eq256])
      ∧ t.status.ILL = false := by
  obtain hclear | ⟨hinv, -, -, hnone⟩ | ⟨hmem, p, -, -, hpredicate⟩ := exec_flags_cases h
  · rw [hclear]
    exact ⟨nofun, nofun, rfl⟩
  · rw [hnone]
    exact ⟨fun _ => hinv, nofun, rfl⟩
  · rw [hpredicate]
    exact ⟨nofun, fun _ => hmem, rfl⟩

/-- Settles O19: a step leaves the flags alone, clears them, or runs a command, and every command writes one of the four
sound values of STATUS. -/
theorem flagsSoundKeptByEveryStep : Obligations.FlagsSoundKeptByEveryStep := by
  refine ⟨fun _ _ => step_keeps_flagsSound, fun i s t h => ?_, fun s c => ?_, fun _ _ _ => exec_flag_origin,
    fun s c hc => ?_⟩
  · obtain ⟨hone, -⟩ := exec_flagsSound h
    exact hone
  · obtain ⟨t, h⟩ := regWrite_next s 0x40 c
    rw [regWrite_cmd] at h
    exact ⟨t, h, command_flagsSound h⟩
  · rw [← regWrite_cmd, regWrite_cmd_of_reserved hc]
    rfl

end Sys2Proof.Proofs
end

section
/-! The reset input and the host's accesses while it is asserted (R170; log 6). -/

namespace Sys2Proof.Proofs

open Sys2Proof Sys2Proof.Machine Sys2Proof.Laws

/-- While reset is asserted every access (an event that is not of the reset input) has no effect and no answer (R170). -/
theorem perform_access_of_resetIn {s : State} {e : HostEvent} (hr : s.resetIn = true) (hrelease : e ≠ .resetRelease)
    (hassert : e ≠ .resetAssert) : s.perform e = .next s := by
  cases e with
  | read | write | writeBack => simp only [State.perform, hr, if_true]
  | resetAssert => exact absurd rfl hassert
  | resetRelease => exact absurd rfl hrelease

/-- A release of a reset that is not asserted does nothing (R170; log 6). -/
theorem perform_resetRelease_of_not_resetIn {s : State} (hr : s.resetIn = false) :
    s.perform .resetRelease = .next s := by
  simp only [State.perform, hr, Bool.false_eq_true, if_false]

/-- Settles O7: the step performs the event, and an access performed during reset leaves the state as it is. -/
theorem noAccessDuringReset : Obligations.NoAccessDuringReset := fun _ _ _ hr he hrelease hassert =>
  (step_of_events he).trans (perform_access_of_resetIn hr hrelease hassert)

/-- Settles O8: the step performs the event; to assert reset sets the reset input, and to release a reset that is not
asserted does nothing. -/
theorem resetInputFollowsItsEvents : Obligations.ResetInputFollowsItsEvents := fun _ _ =>
  ⟨step_of_events, fun hr he => (step_of_events he).trans (perform_resetRelease_of_not_resetIn hr)⟩

end Sys2Proof.Proofs
end
